-- ==== Sys2Proof/Word.lean ====
section
/-! DEFINITION. The word types of the block (00_scope.md R8): bytes, 7-bit codes and 16-bit values. -/

namespace Sys2Proof

/-- `u8`: a wire byte or a byte operand, an octet (R8). -/
abbrev Byte := BitVec 8

/-- `u7`: a 7-bit value, such as an integrity code (R8, R20). -/
abbrev U7 := BitVec 7

/-- `i16`: a 16-bit two's-complement value; `BitVec.toInt` reads it as an integer (R8, R122). -/
abbrev I16 := BitVec 16

end Sys2Proof
end

