-- ==== Sys2Proof/Config.lean ====
section
/-! DEFINITION. The parameters of the block (00_scope.md section 3): the constants the source states, with their values,
and the OPEN parameters of R6, as constants without a value, so that nothing proved can rest on one. -/

namespace Sys2Proof

/-! ## Constants with a value (R7 and the table of 00_scope.md section 3) -/

/-- VMAX: the codec's clamp bound (R7, R120). -/
def Config.vmax : Int := 16383

/-- MAX_FRAME: the largest frame the builder accepts, in bytes (R7, R142). -/
def Config.maxFrame : Nat := 10

/-- REPLY_LEN, which is also the hardwired register `A.declLen` (R28, R85). -/
def Config.replyLen : Nat := 9

/-- The CRC seed, which is also the whitening value (R7, R100). -/
def Config.crcSeed : U7 := 0x7F

/-- The CRC feedback value (R7, R100). -/
def Config.crcFeedback : Byte := 0x76

/-- The default of the reset input pollIntervalMs (R7, R40). -/
def Config.defaultPollIntervalMs : Int := 100

/-- The default of the reset input timeoutMs (R7, R40). -/
def Config.defaultTimeoutMs : Int := 3000

/-- The default of the reset input useCRC (R7, R40). -/
def Config.defaultUseCRC : Bool := true

/-! ## OPEN parameters (R6): DESIGN CHOICE of their form, log 7; no value is chosen -/

/-- CMD_SET: the command code of a set frame (R82). -/
opaque Config.cmdSet : Byte

/-- CMD_GET: the command code of a get-request frame (R83). -/
opaque Config.cmdGet : Byte

/-- CMD_REPLY: the command code of a reply frame (R85). With bit 7 set no reply is ever assembled (R162, R306); the model
keeps that case (log 23). -/
opaque Config.cmdReply : Byte

/-- The get-mode code VALUE (R6, D6). No rule reads it: the selector is an operand of PE_ASYNC_GET and GET. -/
opaque Config.modeValue : Byte

/-- CHECKSUM: a total function from a byte sequence to a 7-bit value, depending on its argument alone (R145). -/
opaque Config.checksum : List Byte → U7

/-- CTX_WIDTH: the width in bits of the caller's context (R35). -/
opaque Config.ctxWidth : Nat

/-- The caller's context, a CTX_WIDTH-bit value the block never interprets (R35). -/
abbrev Ctx := BitVec Config.ctxWidth

/-- The three numeric sentinels of R261. -/
structure Sentinels where
  timedOut : Int
  error    : Int
  busy     : Int
  deriving DecidableEq, Repr, Inhabited

/-- The constraint R261 puts on the sentinels: pairwise distinct, each outside [-16383, 16383]. -/
def Sentinels.legal (t : Sentinels) : Bool :=
  decide (t.timedOut ≠ t.error ∧ t.timedOut ≠ t.busy ∧ t.error ≠ t.busy ∧
    Config.vmax < t.timedOut.natAbs ∧ Config.vmax < t.error.natAbs ∧ Config.vmax < t.busy.natAbs)

/-- An unconstrained triple; only `Config.sentinels` reads it. -/
opaque Config.sentinelsRaw : Sentinels

/-- SENT_TIMEDOUT, SENT_ERROR and SENT_BUSY (R261): ANY triple that meets the constraint. The fallback is never seen to be
taken, since `Config.sentinelsRaw` has no value; it only makes every possible value of this constant a legal one (log 8). -/
def Config.sentinels : Sentinels :=
  if Config.sentinelsRaw.legal then Config.sentinelsRaw else ⟨16384, 16385, 16386⟩

end Sys2Proof
end

