-- ==== Sys2Proof/Syntax.lean ====
section
/-! DEFINITION. The operations of the command port, one constructor per row of spec/opcode_table.json (30_encoding.md R90),
and a command as it stands on the port: an 8-bit op-select code and typed operands passed whole (R89, R93). -/

namespace Sys2Proof

/-- The operations of the block with their operands, in the order of the table of R90. -/
inductive Instr where
  /-- CRC_BEGIN (R101) -/
  | crcBegin
  /-- CRC_WRITE (R102) -/
  | crcWrite (b : Byte)
  /-- CRC_END (R103) -/
  | crcEnd
  /-- CRC_VALUE (R104) -/
  | crcValue
  /-- CRC_SPAN (R105); `bytes` has `n` bytes -/
  | crcSpan (n : Nat) (bytes : List Byte)
  /-- VC_ENC (R121) -/
  | vcEnc (value : Int) (xflags : Byte)
  /-- VC_DEC (R122) -/
  | vcDec (flags w0 w1 : Byte)
  /-- FB_BUILD (R140); `payload` has `n` bytes -/
  | fbBuild (addr cmd : Byte) (useCRC : Bool) (n : Nat) (payload : List Byte)
  /-- FA_FEED (R160) -/
  | faFeed (b : Byte)
  /-- FA_READY (R166) -/
  | faReady
  /-- FA_VIEW (R167) -/
  | faView
  /-- FA_RESET (R168) -/
  | faReset
  /-- DL_RESET (R181) -/
  | dlReset (now : Nat)
  /-- DL_EXPIRE (R182) -/
  | dlExpire
  /-- DL_EXPIRED (R180) -/
  | dlExpired (now : Nat)
  /-- RT_ARM (R201); the payload is flags or get mode, type, number -/
  | rtArm (payload : Vector Byte 3) (ctx : Ctx) (addr : Byte) (mode : Bool) (now : Nat)
  /-- RT_MARK_SENT (R202) -/
  | rtMarkSent
  /-- RT_CLEAR (R203) -/
  | rtClear
  /-- RT_PENDING (R204) -/
  | rtPending
  /-- RT_EXPIRED (R205) -/
  | rtExpired (now : Nat)
  /-- RT_RESET (R207) -/
  | rtReset (now : Nat)
  /-- RT_EXPIRE (R208) -/
  | rtExpire
  /-- PE_SET (R223) -/
  | peSet (addr ctype number : Byte) (value : Int) (xflags : Byte)
  /-- PE_ASYNC_GET (R221) -/
  | peAsyncGet (addr ctype number mode : Byte) (ctx : Ctx) (now : Nat)
  /-- PE_POLL (R224) -/
  | pePoll (now : Nat)
  deriving DecidableEq, Repr

/-- The operations without their operands: what an op-select code names (R89). -/
inductive Op where
  | crcBegin | crcWrite | crcEnd | crcValue | crcSpan
  | vcEnc | vcDec
  | fbBuild
  | faFeed | faReady | faView | faReset
  | dlReset | dlExpire | dlExpired
  | rtArm | rtMarkSent | rtClear | rtPending | rtExpired | rtReset | rtExpire
  | peSet | peAsyncGet | pePoll
  deriving DecidableEq, Repr

/-- The operand types of R90. -/
inductive OperandType where
  | u8
  | bool
  | int
  | nat
  | ctx
  /-- bytes[n], where n is the operand before it -/
  | bytesN
  /-- bytes[3] -/
  | bytes3
  deriving DecidableEq, Repr

/-- One typed operand as the port carries it, whole (R89, R93). -/
inductive Operand where
  | u8 (b : Byte)
  | bool (b : Bool)
  | int (v : Int)
  | nat (n : Nat)
  | ctx (c : Ctx)
  | bytes (s : List Byte)
  deriving DecidableEq, Repr

/-- A command on the port: the op-select code `op[7:0]` and the operands in the order of the operation's list (R89). -/
structure Command where
  op       : Byte
  operands : List Operand
  deriving DecidableEq, Repr

end Sys2Proof
end

