-- ==== Sys2Proof/WellFormed.lean ====
section
/-! DEFINITION. When an operation is well formed: an operand of type bytes[n] has the n bytes its operand n says (R90). The
other operand types of R90 are the Lean types of the operands and need no check. -/

namespace Sys2Proof

/-- Well-formedness. A payload over MAX_PAYLOAD bytes IS well formed: FB_BUILD's own rule handles it (R91, R142). -/
def Instr.wf : Instr → Bool
  | .crcSpan n bytes => bytes.length == n
  | .fbBuild _ _ _ n payload => payload.length == n
  | .crcBegin | .crcWrite _ | .crcEnd | .crcValue
  | .vcEnc _ _ | .vcDec _ _ _
  | .faFeed _ | .faReady | .faView | .faReset
  | .dlReset _ | .dlExpire | .dlExpired _
  | .rtArm _ _ _ _ _ | .rtMarkSent | .rtClear | .rtPending | .rtExpired _ | .rtReset _ | .rtExpire
  | .peSet _ _ _ _ _ | .peAsyncGet _ _ _ _ _ _ | .pePoll _ => true

end Sys2Proof
end

