-- ==== Sys2Proof/Decode.lean ====
section
/-! DEFINITION. The op-select codes (30_encoding.md R90), the decoder of a command, total and rejecting by name, and the
encoder written from the same table. -/

namespace Sys2Proof

/-- The op-select code of each operation: the first column of R90. Bits 7..4 name the unit, bits 3..0 the operation. -/
def Op.code : Op → Byte
  | .crcBegin => 0x01
  | .crcWrite => 0x02
  | .crcEnd => 0x03
  | .crcValue => 0x04
  | .crcSpan => 0x05
  | .vcEnc => 0x10
  | .vcDec => 0x11
  | .fbBuild => 0x20
  | .faFeed => 0x30
  | .faReady => 0x31
  | .faView => 0x32
  | .faReset => 0x33
  | .dlReset => 0x40
  | .dlExpire => 0x41
  | .dlExpired => 0x42
  | .rtArm => 0x50
  | .rtMarkSent => 0x51
  | .rtClear => 0x52
  | .rtPending => 0x53
  | .rtExpired => 0x54
  | .rtReset => 0x55
  | .rtExpire => 0x56
  | .peSet => 0x60
  | .peAsyncGet => 0x61
  | .pePoll => 0x62

/-- Every operation, in the order of R90. -/
def Op.all : List Op :=
  [.crcBegin, .crcWrite, .crcEnd, .crcValue, .crcSpan, .vcEnc, .vcDec, .fbBuild, .faFeed, .faReady, .faView, .faReset] ++
  [.dlReset, .dlExpire, .dlExpired, .rtArm, .rtMarkSent, .rtClear, .rtPending, .rtExpired, .rtReset, .rtExpire] ++
  [.peSet, .peAsyncGet, .pePoll]

/-- The operation an op-select code names; `none` for an unassigned code (R91). -/
def Op.ofCode (b : Byte) : Option Op := Op.all.find? fun o => o.code == b

/-- The operand types of each operation, in order: the operand column of R90. -/
def Op.signature : Op → List OperandType
  | .crcWrite | .faFeed => [.u8]
  | .crcSpan => [.nat, .bytesN]
  | .vcEnc => [.int, .u8]
  | .vcDec => [.u8, .u8, .u8]
  | .fbBuild => [.u8, .u8, .bool, .nat, .bytesN]
  | .dlReset | .dlExpired | .rtExpired | .rtReset | .pePoll => [.nat]
  | .rtArm => [.bytes3, .ctx, .u8, .bool, .nat]
  | .peSet => [.u8, .u8, .u8, .int, .u8]
  | .peAsyncGet => [.u8, .u8, .u8, .u8, .ctx, .nat]
  | .crcBegin | .crcEnd | .crcValue | .faReady | .faView | .faReset | .dlExpire | .rtMarkSent | .rtClear
  | .rtPending | .rtExpire => []

/-- Why a command is not decoded. -/
inductive DecodeError where
  /-- The op-select code is in no row of R90 (R91): Fault(UNDEFINED_OP). -/
  | unassignedOp
  /-- The operands are not of the operation's types: no command of the port (log 3). -/
  | operandShape
  deriving DecidableEq, Repr

/-- The operation `o` with the operands `xs`, if they are of its types (R90): one arm per row of the table. -/
def decodeOperands (o : Op) (xs : List Operand) : Option Instr :=
  match o with
  | .crcBegin => match xs with | [] => some .crcBegin | _ => none
  | .crcWrite => match xs with | [.u8 b] => some (.crcWrite b) | _ => none
  | .crcEnd => match xs with | [] => some .crcEnd | _ => none
  | .crcValue => match xs with | [] => some .crcValue | _ => none
  | .crcSpan =>
    match xs with
    | [.nat n, .bytes s] => if s.length == n then some (.crcSpan n s) else none
    | _ => none
  | .vcEnc => match xs with | [.int v, .u8 x] => some (.vcEnc v x) | _ => none
  | .vcDec => match xs with | [.u8 f, .u8 w0, .u8 w1] => some (.vcDec f w0 w1) | _ => none
  | .fbBuild =>
    match xs with
    | [.u8 a, .u8 c, .bool u, .nat n, .bytes p] => if p.length == n then some (.fbBuild a c u n p) else none
    | _ => none
  | .faFeed => match xs with | [.u8 b] => some (.faFeed b) | _ => none
  | .faReady => match xs with | [] => some .faReady | _ => none
  | .faView => match xs with | [] => some .faView | _ => none
  | .faReset => match xs with | [] => some .faReset | _ => none
  | .dlReset => match xs with | [.nat now] => some (.dlReset now) | _ => none
  | .dlExpire => match xs with | [] => some .dlExpire | _ => none
  | .dlExpired => match xs with | [.nat now] => some (.dlExpired now) | _ => none
  | .rtArm =>
    match xs with
    | [.bytes [p0, p1, p2], .ctx c, .u8 a, .bool m, .nat now] => some (.rtArm #v[p0, p1, p2] c a m now)
    | _ => none
  | .rtMarkSent => match xs with | [] => some .rtMarkSent | _ => none
  | .rtClear => match xs with | [] => some .rtClear | _ => none
  | .rtPending => match xs with | [] => some .rtPending | _ => none
  | .rtExpired => match xs with | [.nat now] => some (.rtExpired now) | _ => none
  | .rtReset => match xs with | [.nat now] => some (.rtReset now) | _ => none
  | .rtExpire => match xs with | [] => some .rtExpire | _ => none
  | .peSet =>
    match xs with
    | [.u8 a, .u8 t, .u8 n, .int v, .u8 x] => some (.peSet a t n v x)
    | _ => none
  | .peAsyncGet =>
    match xs with
    | [.u8 a, .u8 t, .u8 n, .u8 m, .ctx c, .nat now] => some (.peAsyncGet a t n m c now)
    | _ => none
  | .pePoll => match xs with | [.nat now] => some (.pePoll now) | _ => none

/-- The decoder: the code first (R263 reports UNDEFINED_OP before anything else), then the operands. -/
def decode (c : Command) : Except DecodeError Instr :=
  match Op.ofCode c.op with
  | none => .error .unassignedOp
  | some o =>
    match decodeOperands o c.operands with
    | none => .error .operandShape
    | some i => .ok i

/-! ## The encoder -/

/-- Which operation an instruction is. -/
def Instr.op : Instr → Op
  | .crcBegin => .crcBegin
  | .crcWrite _ => .crcWrite
  | .crcEnd => .crcEnd
  | .crcValue => .crcValue
  | .crcSpan _ _ => .crcSpan
  | .vcEnc _ _ => .vcEnc
  | .vcDec _ _ _ => .vcDec
  | .fbBuild _ _ _ _ _ => .fbBuild
  | .faFeed _ => .faFeed
  | .faReady => .faReady
  | .faView => .faView
  | .faReset => .faReset
  | .dlReset _ => .dlReset
  | .dlExpire => .dlExpire
  | .dlExpired _ => .dlExpired
  | .rtArm _ _ _ _ _ => .rtArm
  | .rtMarkSent => .rtMarkSent
  | .rtClear => .rtClear
  | .rtPending => .rtPending
  | .rtExpired _ => .rtExpired
  | .rtReset _ => .rtReset
  | .rtExpire => .rtExpire
  | .peSet _ _ _ _ _ => .peSet
  | .peAsyncGet _ _ _ _ _ _ => .peAsyncGet
  | .pePoll _ => .pePoll

/-- The operands of an instruction, in the order of its rule (R89, R90). -/
def Instr.operands : Instr → List Operand
  | .crcWrite b | .faFeed b => [.u8 b]
  | .crcSpan n s => [.nat n, .bytes s]
  | .vcEnc v x => [.int v, .u8 x]
  | .vcDec f w0 w1 => [.u8 f, .u8 w0, .u8 w1]
  | .fbBuild a c u n p => [.u8 a, .u8 c, .bool u, .nat n, .bytes p]
  | .dlReset now | .dlExpired now | .rtExpired now | .rtReset now | .pePoll now => [.nat now]
  | .rtArm p c a m now => [.bytes p.toList, .ctx c, .u8 a, .bool m, .nat now]
  | .peSet a t n v x => [.u8 a, .u8 t, .u8 n, .int v, .u8 x]
  | .peAsyncGet a t n m c now => [.u8 a, .u8 t, .u8 n, .u8 m, .ctx c, .nat now]
  | .crcBegin | .crcEnd | .crcValue | .faReady | .faView | .faReset | .dlExpire | .rtMarkSent | .rtClear
  | .rtPending | .rtExpire => []

/-- The command of a well-formed instruction. -/
def encode (i : Instr) : Command := { op := i.op.code, operands := i.operands }

/-! ## The opcode table's words -/

/-- The operand of a type all of whose content is zero. The operand n before a bytes[n] is then 0, so bytes[n] is empty. -/
def OperandType.zero : OperandType → Operand
  | .u8 => .u8 0
  | .bool => .bool false
  | .int => .int 0
  | .nat => .nat 0
  | .ctx => .ctx 0
  | .bytesN => .bytes []
  | .bytes3 => .bytes [0, 0, 0]

/-- The command whose op-select code is the low `nbits` bits of `w` and whose operands are zero. The table gives a row its 8
op-select bits and no operand bits (R93: operands are passed whole, in no bit field), so operands are zero (log 2). -/
def commandOfWord (nbits w : Nat) : Command :=
  let code := BitVec.ofNat 8 (w % 2 ^ nbits)
  { op := code
    operands := match Op.ofCode code with
      | some o => o.signature.map OperandType.zero
      | none => [] }

/-- The instruction the decoder reads from a word of spec/opcode_table.json. A word with a bit set above bit 7 is no
op-select code. -/
def decodeTableWord (nbits w : Nat) : Option Instr :=
  if w % 2 ^ nbits < 256 then (decode (commandOfWord nbits w)).toOption else none

end Sys2Proof
end

