-- ==== Sys2Proof/Machine/State.lean ====
section
/-! DEFINITION. The architectural state (10_state.md), the transport the block borrows (20_memory.md), the inputs that wait
for it, the reasons a step stops (60_exceptions.md R262) and construction, the only reset (70_reset_and_hazards.md). -/

namespace Sys2Proof.Machine

/-- Why the machine stops with a fault (R262). Each fault ends the run, so it is recorded for ever and nothing is changed by
the operation that raised it (log 6). -/
inductive Fault where
  /-- UNDEFINED_OP: raised by `step` for an unassigned op-select code (R91). Safe: the spec's own fault. -/
  | undefinedOp
  /-- TIME_NOT_MONOTONIC: raised by any operation with a `now` below the unit's `tLast` (R73). Safe: the spec's own fault. -/
  | timeNotMonotonic
  /-- CRC_UNINIT: raised by CRC_WRITE, CRC_END and CRC_VALUE while `C.crc` is ⊥ (R102 to R104). Safe: the spec's own fault. -/
  | crcUninit
  /-- FRAME_OVERFLOW: raised by FB_BUILD when n + 3 > 10 (R142). Safe: the spec's own fault. -/
  | frameOverflow
  /-- TRACKER_STATE: raised by RT_MARK_SENT outside ARMED (R202). Safe: the spec's own fault. -/
  | trackerState
  /-- BOTTOM_READ: raised by a read of another register that holds ⊥ (R8 calls it a fault; R262 says no run reaches it).
  Raised by FA_VIEW, PE_ASYNC_GET, PE_POLL and GET, in unreachable states alone (log 10). Safe: it stops. -/
  | bottomRead
  deriving DecidableEq, Repr

/-- Why the machine refuses an input. -/
inductive Refusal where
  /-- An operation without a meaning, by its mnemonic. No arm of `exec` uses it. Safe: it stops. -/
  | notModelled (mnemonic : String)
  /-- Raised by `step` for a command whose operands are not of its operation's types: the port carries typed operands (R89), so
  it carries no such command (log 3). Safe: it stops. -/
  | operandShape
  deriving DecidableEq, Repr

/-- A deadline timer (R30 to R32). -/
structure Deadline where
  /-- `Dl.start` in milliseconds (R30) -/
  start    : Nat
  /-- `Dl.duration` in milliseconds, negative for infinite (R31) -/
  duration : Int
  /-- `Dl.forced` (R32) -/
  forced   : Bool
  deriving DecidableEq, Repr

/-- A frame assembler (R24 to R27). `A.declLen` is the constant `Config.replyLen` (R28). -/
structure Assembler where
  /-- `A.buf[0..8]`; `none` is ⊥, the spec's own reset value (R24) -/
  buf   : Vector (Option Byte) 9
  /-- `A.len`, 0..9 (R25) -/
  len   : Fin 10
  /-- `A.ready` (R26) -/
  ready : Bool
  /-- `A.okCRC` (R27) -/
  okCRC : Bool
  /-- `A.okSum` (R27) -/
  okSum : Bool
  deriving DecidableEq, Repr

/-- `T.state` (R33). -/
inductive TrackerState where
  | idle
  | armed
  | pending
  deriving DecidableEq, Repr

/-- The encoding of `T.state` (R33); 3 is never held. -/
def TrackerState.code : TrackerState → BitVec 2
  | .idle => 0
  | .armed => 1
  | .pending => 2

/-- A request tracker (R33 to R38). `none` is ⊥, the spec's own reset value. -/
structure Tracker where
  /-- `T.state` (R33) -/
  state   : TrackerState
  /-- `T.payload[0..2]` (R34) -/
  payload : Vector (Option Byte) 3
  /-- `T.ctx` (R35) -/
  ctx     : Option Ctx
  /-- `T.addr` (R36) -/
  addr    : Option Byte
  /-- `T.mode`, true for CRC7 (R37) -/
  mode    : Option Bool
  /-- `T.dl` (R38) -/
  dl      : Deadline
  deriving DecidableEq, Repr

/-- The engine's configuration registers (R40). -/
structure EngineCfg where
  pollIntervalMs : Int
  timeoutMs      : Int
  useCRC         : Bool
  deriving DecidableEq, Repr

/-- The protocol engine (R40 to R42). -/
structure Engine where
  /-- `E.cfg` (R40) -/
  cfg    : EngineCfg
  /-- `E.asm` (R41) -/
  asm    : Assembler
  /-- `E.trk` (R41) -/
  trk    : Tracker
  /-- `E.pollDl` (R41) -/
  pollDl : Deadline
  /-- `E.tLast` (R42) -/
  tLast  : Nat
  deriving DecidableEq, Repr

/-- A terminal outcome of a request (R232, R260). -/
inductive PollOutcome where
  | value (v : I16)
  | timedOut
  | error
  deriving DecidableEq, Repr

/-- The result of an operation, as the port returns it: the result column of R90, and GET's (R238). -/
inductive Resp where
  /-- result "none" -/
  | done
  /-- u7 of CRC_VALUE and CRC_SPAN -/
  | code (c : U7)
  /-- (flags, w0, w1) of VC_ENC -/
  | words (flags w0 w1 : Byte)
  /-- i16 of VC_DEC -/
  | value (v : I16)
  /-- bytes[n+3] of FB_BUILD -/
  | frame (bytes : List Byte)
  /-- bool of FA_READY, DL_EXPIRED, RT_PENDING, RT_EXPIRED; accepted of RT_ARM and PE_ASYNC_GET -/
  | flag (b : Bool)
  /-- FA_VIEW's none, or (bytes[9], okCRC, okSum) -/
  | view (v : Option (Vector Byte 9 × Bool × Bool))
  /-- (ready, outcome, ctx) of PE_POLL -/
  | poll (ready : Bool) (outcome : Option PollOutcome) (ctx : Option Ctx)
  /-- GET goes on: its loop has not returned yet (R238) -/
  | getRunning
  /-- GET returned this number (R238, R261) -/
  | getNum (v : Int)
  deriving DecidableEq, Repr

/-- The inputs of construction (R290); a value the host does not supply is `none` and takes its default. -/
structure ResetInputs where
  pollIntervalMs : Option Int
  timeoutMs      : Option Int
  useCRC         : Option Bool
  t0             : Nat
  /-- SA_DL_DURATION -/
  saDlDuration   : Int
  deriving DecidableEq, Repr

/-- What the host or the environment does next; one input is taken a step (log 1). -/
inductive Input where
  /-- an operation on the command port (R89) -/
  | command (c : Command)
  /-- the environment appends bytes to RX (R63) -/
  | rxBytes (bytes : List Byte)
  /-- the host discards bytes at RX's head from the transport (R295 step 2, R301); DESIGN CHOICE of its form, log 28 -/
  | rxDiscard (count : Nat)
  /-- the host begins a GET: DL_EXPIRE on the poll deadline, then PE_ASYNC_GET with context 0 (R238) -/
  | getCall (addr ctype number mode : Byte) (now : Nat)
  /-- one pass of GET's loop: a PE_POLL at a time read afresh (R238) -/
  | getPoll (now : Nat)
  /-- the host constructs the block anew on the same transport (R290, R294, R46) -/
  | construct (r : ResetInputs)
  deriving DecidableEq, Repr

/-- The state: the block's registers, the transport's two streams, and the model's `inputs` and `resp`. -/
structure State where
  /-- `C.crc` of the standalone generator; `none` is ⊥, the spec's own reset value (R20, R21) -/
  crc     : Option U7
  /-- the standalone assembler -/
  asm     : Assembler
  /-- the standalone deadline -/
  dl      : Deadline
  /-- the standalone deadline's `tLast` (R42) -/
  dlLast  : Nat
  /-- the standalone request tracker -/
  trk     : Tracker
  /-- the standalone tracker's `tLast` (R42) -/
  trkLast : Nat
  /-- the protocol engine -/
  eng     : Engine
  /-- TX, oldest byte first (R60) -/
  tx      : List Byte
  /-- RX, head first (R61) -/
  rx      : List Byte
  /-- what the host and the environment do next (log 1) -/
  inputs  : List Input
  /-- the result of the last operation (log 5) -/
  resp    : Option Resp
  deriving DecidableEq, Repr

/-! ## Construction (R291) -/

/-- A deadline constructed at `t0`: start t0, not forced (R30, R32, R291). -/
def Deadline.construct (duration : Int) (t0 : Nat) : Deadline := { start := t0, duration := duration, forced := false }

/-- A constructed assembler (R291). -/
def Assembler.construct : Assembler :=
  { buf := Vector.replicate 9 none, len := 0, ready := false, okCRC := false, okSum := false }

/-- A constructed tracker, whose deadline lasts `timeoutMs` (R291). -/
def Tracker.construct (timeoutMs : Int) (t0 : Nat) : Tracker :=
  { state := .idle, payload := Vector.replicate 3 none, ctx := none, addr := none, mode := none
    dl := Deadline.construct timeoutMs t0 }

/-- The configuration latched at construction, with the defaults for what the host does not supply (R40, R290). -/
def EngineCfg.latch (r : ResetInputs) : EngineCfg :=
  { pollIntervalMs := r.pollIntervalMs.getD Config.defaultPollIntervalMs
    timeoutMs := r.timeoutMs.getD Config.defaultTimeoutMs
    useCRC := r.useCRC.getD Config.defaultUseCRC }

/-- The constructed engine (R291). -/
def Engine.construct (r : ResetInputs) : Engine :=
  { cfg := EngineCfg.latch r
    asm := Assembler.construct
    trk := Tracker.construct (EngineCfg.latch r).timeoutMs r.t0
    pollDl := Deadline.construct (EngineCfg.latch r).pollIntervalMs r.t0
    tLast := r.t0 }

/-- The block constructed with the reset inputs `r` on a transport that holds `tx` and `rx`, which construction leaves as they
are (R46, R291), before the host's `inputs`. -/
def State.construct (r : ResetInputs) (tx rx : List Byte) (inputs : List Input) : State :=
  { crc := none
    asm := Assembler.construct
    dl := Deadline.construct r.saDlDuration r.t0
    dlLast := r.t0
    trk := Tracker.construct (EngineCfg.latch r).timeoutMs r.t0
    trkLast := r.t0
    eng := Engine.construct r
    tx := tx
    rx := rx
    inputs := inputs
    resp := none }

/-- The machine right after reset: R291 with the default configuration (R290). DESIGN CHOICE, log 9: the spec gives the reset
inputs t0 and SA_DL_DURATION no default, and this state takes 0 for both; log 20: the transport holds no byte. -/
def State.reset : State :=
  State.construct { pollIntervalMs := none, timeoutMs := none, useCRC := none, t0 := 0, saDlDuration := 0 } [] [] []

end Sys2Proof.Machine
end

