-- ==== Sys2Proof/Machine/Ops.lean ====
section
/-! DEFINITION. The named operations every meaning is made of: how an operation ends (R11), the monotone-time check (R73), the
transport primitives (R60 to R62), CRC7 (R100), the frame builder's function (R140), and the deadline's operations (R180 to
R182). The block takes no exception and returns from none (R265): there is no saved state and no handler, and the one way an
operation stops is `Host.Outcome.fault`. -/

namespace Sys2Proof.Machine

/-! ## How an operation ends -/

/-- `return v` (R11): the result goes on the port. -/
def reply (r : Resp) (s : State) : Host.Outcome State Fault Refusal := .next { s with resp := some r }

/-! ## Time -/

/-- R73: the new `tLast`, or Fault(TIME_NOT_MONOTONIC) when `now` is smaller than the old one. -/
def takeTime (last now : Nat) : Except Fault Nat :=
  if now < last then .error .timeNotMonotonic else .ok now

/-! ## Transport primitives -/

/-- `TxWrite(s)` (R60): the bytes go to the end of TX, in order. -/
def State.txWrite (bytes : List Byte) (s : State) : State := { s with tx := s.tx ++ bytes }

/-- `RxTryRead()` (R61): the byte at the head of RX and what remains, or none. -/
def rxTryRead (rx : List Byte) : Option (Byte × List Byte) :=
  match rx with
  | [] => none
  | b :: rest => some (b, rest)

/-- `RxFlush()` (R62): RxTryRead until it answers none. -/
def rxFlush (rx : List Byte) : List Byte :=
  match rx with
  | [] => []
  | _ :: rest => rxFlush rest

/-- The environment appends bytes to RX (R63). -/
def State.rxAppend (bytes : List Byte) (s : State) : State := { s with rx := s.rx ++ bytes }

/-- The host discards up to `count` bytes at RX's head, all of them when there are no more (R295 step 2, R301; log 28). -/
def State.rxDiscard (count : Nat) (s : State) : State := { s with rx := s.rx.drop count }

/-- RX holds `rx` from here on. -/
def State.setRx (rx : List Byte) (s : State) : State := { s with rx := rx }

/-! ## Writes to the engine's registers -/

/-- `E.tLast <- t` (R73). -/
def State.setEngLast (t : Nat) (s : State) : State := { s with eng := { s.eng with tLast := t } }

/-- The engine's assembler `E.asm`. -/
def State.setEngAsm (a : Assembler) (s : State) : State := { s with eng := { s.eng with asm := a } }

/-- The engine's request tracker `E.trk`. -/
def State.setEngTrk (t : Tracker) (s : State) : State := { s with eng := { s.eng with trk := t } }

/-- The engine's poll deadline `E.pollDl`. -/
def State.setPollDl (d : Deadline) (s : State) : State := { s with eng := { s.eng with pollDl := d } }

/-! ## CRC7 -/

/-- One of the eight steps of `step8` (R100): the low bit is tested, then the shift. -/
def crcShift (c : Byte) : Byte := if c.getLsbD 0 then (c >>> 1) ^^^ Config.crcFeedback else c >>> 1

/-- `k` steps of the loop of `step8`. -/
def crcShifts (k : Nat) (c : Byte) : Byte :=
  match k with
  | 0 => c
  | k + 1 => crcShifts k (crcShift c)

/-- The 8-bit value the loop of `step8` ends with; R106 says it is below 0x80. -/
def step8wide (r : U7) (b : Byte) : Byte := crcShifts 8 (r.setWidth 8 ^^^ b)

/-- `step8` (R100). -/
def step8 (r : U7) (b : Byte) : U7 := (step8wide r b).setWidth 7

/-- The running value after the bytes `s` (R100). -/
def crcRun (r : U7) (s : List Byte) : U7 := s.foldl step8 r

/-- `crc7` (R100). -/
def crc7 (s : List Byte) : U7 := crcRun Config.crcSeed s ^^^ Config.crcSeed

/-! ## The frame builder -/

/-- The integrity code over `body` in the given mode: CRC7 (R143) or CHECKSUM (R144), one byte with bit 7 = 0 (R84). -/
def trailer (useCRC : Bool) (body : List Byte) : Byte :=
  (if useCRC then crc7 body else Config.checksum body).setWidth 8

/-- The frame of an address, a command code and a payload (R141). -/
def frameOf (addr cmd : Byte) (useCRC : Bool) (payload : List Byte) : List Byte :=
  ([addr, cmd] ++ payload) ++ [trailer useCRC ([addr, cmd] ++ payload)]

/-- `FB_BUILD` as a function (R140), with the bound of R142. -/
def buildFrame (addr cmd : Byte) (useCRC : Bool) (n : Nat) (payload : List Byte) : Except Fault (List Byte) :=
  if n + 3 > Config.maxFrame then .error .frameOverflow else .ok (frameOf addr cmd useCRC payload)

/-! ## The deadline -/

/-- DL_RESET (R181). -/
def Deadline.restart (now : Nat) (d : Deadline) : Deadline := { d with start := now, forced := false }

/-- DL_EXPIRE (R182). -/
def Deadline.expire (d : Deadline) : Deadline := { d with forced := true }

/-- DL_EXPIRED at `now` (R180, R183): an infinite duration comes first, then the forced flag, then elapsed ≥ duration. The
elapsed time is an integer here; it is the natural number of R184 wherever `now ≥ start` (log 19). -/
def Deadline.expired (now : Nat) (d : Deadline) : Bool :=
  if d.duration < 0 then false
  else if d.forced then true
  else decide (d.duration ≤ (now : Int) - (d.start : Int))

/-- The elapsed time a counter of `width` bits computes (R184). No operation uses it: the rules are stated for the unbounded
counter (log 15). -/
def elapsedFinite (width now start : Nat) : Nat := (now - start) % 2 ^ width

end Sys2Proof.Machine
end

