-- ==== Sys2Proof/Machine/Operands.lean ====
section
/-! DEFINITION. Operand and field forms: the signed-value codec's fields (30_encoding.md R80, R81; 41_value_codec.md R120 to
R122), and the reads of registers that may hold ⊥ (00_scope.md R8). -/

namespace Sys2Proof.Machine

/-! ## The signed-value codec -/

/-- `clamp` (R120): saturation to [-16383, 16383]. -/
def clamp (v : Int) : Int := max (-Config.vmax) (min Config.vmax v)

/-- The magnitude the encoder splits (R121). -/
def magnitude (v : Int) : Nat := (clamp v).natAbs

/-- The flags byte of an encoded value: the extra flags, with bit 0 set when the clamped value is negative (R80, R121). -/
def valueFlags (v : Int) (xflags : Byte) : Byte := if clamp v < 0 then xflags ||| 0x01 else xflags

/-- word0: magnitude bits 6..0 (R81). -/
def word0 (v : Int) : Byte := BitVec.ofNat 8 (magnitude v &&& 0x7F)

/-- word1: magnitude bits 13..7 (R81). -/
def word1 (v : Int) : Byte := BitVec.ofNat 8 ((magnitude v >>> 7) &&& 0x7F)

/-- `VC_DEC` as a function (R122): the literal formula, no masking, an i16 result. -/
def decodeValue (flags w0 w1 : Byte) : I16 :=
  let m : I16 := w0.setWidth 16 ||| (w1.setWidth 16 <<< 7)
  if flags.getLsbD 0 then -m else m

/-! ## Reads of registers that may hold ⊥ -/

/-- `C.crc`, or Fault(CRC_UNINIT) while it holds ⊥ (R102 to R104). -/
def State.readCrc (s : State) : Except Fault U7 :=
  match s.crc with
  | some r => .ok r
  | none => .error .crcUninit

/-- A cell that may hold ⊥; reading ⊥ is a fault (R8, log 10). -/
def readCell {α : Type} (c : Option α) : Except Fault α :=
  match c with
  | some v => .ok v
  | none => .error .bottomRead

/-- `A.buf[0..7]`, the bytes the trailer covers, or none when one of the cells holds ⊥ (R165). -/
def Assembler.body? (a : Assembler) : Option (List Byte) :=
  match a.buf[0], a.buf[1], a.buf[2], a.buf[3], a.buf[4], a.buf[5], a.buf[6], a.buf[7] with
  | some b0, some b1, some b2, some b3, some b4, some b5, some b6, some b7 => some [b0, b1, b2, b3, b4, b5, b6, b7]
  | _, _, _, _, _, _, _, _ => none

/-- `A.buf[0..8]`, or none when one of the cells holds ⊥ (R167). -/
def Assembler.frame? (a : Assembler) : Option (Vector Byte 9) :=
  match a.body?, a.buf[8] with
  | some [b0, b1, b2, b3, b4, b5, b6, b7], some b8 => some #v[b0, b1, b2, b3, b4, b5, b6, b7, b8]
  | _, _ => none

/-- What the request frame and the correlation read of a tracker: `T.addr`, `T.mode` and `T.payload` (R222, R227). -/
structure WireRequest where
  addr   : Byte
  mode   : Bool
  flags  : Byte
  ctype  : Byte
  number : Byte
  deriving DecidableEq, Repr

/-- The stored request, or none when a field holds ⊥. -/
def Tracker.wire? (t : Tracker) : Option WireRequest :=
  match t.addr, t.mode, t.payload[0], t.payload[1], t.payload[2] with
  | some a, some m, some p0, some p1, some p2 => some { addr := a, mode := m, flags := p0, ctype := p1, number := p2 }
  | _, _, _, _, _ => none

end Sys2Proof.Machine
end

