-- ==== Sys2Proof/Machine/Flags.lean ====
section
/-! DEFINITION. Every status flag and predicate of the block (10_state.md R43) as a function of what it is computed from. There
are no arithmetic condition codes. -/

namespace Sys2Proof.Machine

/-- The value of `A.okCRC` at completion (R165): the trailer cell equals the CRC7 of cells 0..7. A cell that holds ⊥ equals
nothing (log 11). -/
def Assembler.matchesCRC (a : Assembler) : Bool :=
  match a.body?, a.buf[8] with
  | some body, some t => t == trailer true body
  | _, _ => false

/-- The value of `A.okSum` at completion (R165): the trailer cell equals CHECKSUM of cells 0..7. -/
def Assembler.matchesSum (a : Assembler) : Bool :=
  match a.body?, a.buf[8] with
  | some body, some t => t == trailer false body
  | _, _ => false

/-- `pending` (R33, R204). -/
def Tracker.pending (t : Tracker) : Bool := t.state == .pending

/-- `busy` (R33). -/
def Tracker.busy (t : Tracker) : Bool := t.state != .idle

/-- `pollDisabled` (R220). -/
def Engine.pollDisabled (e : Engine) : Bool := decide (e.cfg.pollIntervalMs ≤ 0)

/-- The correlation predicate of R227 for the frame `f` with integrity flags `okC` and `okS` and the stored request `r`. The
reserved byte f[3] and the value words f[4] and f[5] are not compared. -/
def correlates (r : WireRequest) (f : Vector Byte 9) (okC okS : Bool) : Bool :=
  f[0] == r.addr && f[1] == Config.cmdReply && (if r.mode then okC else okS) &&
    (f[2] &&& 0xFE) == (r.flags &&& 0xFE) && f[6] == r.ctype && f[7] == r.number

/-- The numeric form of an outcome (R261). -/
def PollOutcome.num (o : PollOutcome) : Int :=
  match o with
  | .value v => v.toInt
  | .timedOut => Config.sentinels.timedOut
  | .error => Config.sentinels.error

end Sys2Proof.Machine
end

