-- ==== Sys2Proof/Machine/Builder.lean ====
section
/-! DEFINITION. The frame builder's operation (42_frame_builder.md R140). The builder has no state (R23) and writes no TX: its
result goes to the host. -/

namespace Sys2Proof.Machine

/-- FB_BUILD (R140, R142). -/
def execFbBuild (addr cmd : Byte) (useCRC : Bool) (n : Nat) (payload : List Byte) (s : State) :
    Host.Outcome State Fault Refusal :=
  match buildFrame addr cmd useCRC n payload with
  | .ok bytes => reply (.frame bytes) s
  | .error f => .fault f

end Sys2Proof.Machine
end

