-- ==== Sys2Proof/Machine/Codec.lean ====
section
/-! DEFINITION. The signed-value codec's operations (41_value_codec.md R121, R122). The codec has no state (R22). -/

namespace Sys2Proof.Machine

/-- VC_ENC (R121). -/
def execVcEnc (value : Int) (xflags : Byte) (s : State) : Host.Outcome State Fault Refusal :=
  reply (.words (valueFlags value xflags) (word0 value) (word1 value)) s

/-- VC_DEC (R122). -/
def execVcDec (flags w0 w1 : Byte) (s : State) : Host.Outcome State Fault Refusal :=
  reply (.value (decodeValue flags w0 w1)) s

end Sys2Proof.Machine
end

