-- ==== Sys2Proof/Machine/Crc.lean ====
section
/-! DEFINITION. The CRC7 generator's operations (40_crc7.md R101 to R105), on the standalone generator (R14). -/

namespace Sys2Proof.Machine

/-- CRC_BEGIN (R101): legal in every state; it restarts the digest. -/
def execCrcBegin (s : State) : Host.Outcome State Fault Refusal :=
  reply .done { s with crc := some Config.crcSeed }

/-- CRC_WRITE (R102). -/
def execCrcWrite (b : Byte) (s : State) : Host.Outcome State Fault Refusal :=
  match s.readCrc with
  | .ok r => reply .done { s with crc := some (step8 r b) }
  | .error f => .fault f

/-- CRC_END (R103): the whitening. -/
def execCrcEnd (s : State) : Host.Outcome State Fault Refusal :=
  match s.readCrc with
  | .ok r => reply .done { s with crc := some (r ^^^ Config.crcSeed) }
  | .error f => .fault f

/-- CRC_VALUE (R104): it does not check that CRC_END has run. -/
def execCrcValue (s : State) : Host.Outcome State Fault Refusal :=
  match s.readCrc with
  | .ok r => reply (.code r) s
  | .error f => .fault f

/-- CRC_SPAN (R105): `C.crc` is neither read nor written. The operand n is the length of the sequence (`Instr.wf`). -/
def execCrcSpan (_n : Nat) (bytes : List Byte) (s : State) : Host.Outcome State Fault Refusal :=
  reply (.code (crc7 bytes)) s

end Sys2Proof.Machine
end

