-- ==== Sys2Proof/Machine/DeadlineTimer.lean ====
section
/-! DEFINITION. The deadline timer's operations (44_deadline.md R180 to R182), on the standalone deadline (R14), each with the
monotone-time check of R73 on that unit's own `tLast` (R42). -/

namespace Sys2Proof.Machine

/-- DL_RESET (R181). -/
def execDlReset (now : Nat) (s : State) : Host.Outcome State Fault Refusal :=
  match takeTime s.dlLast now with
  | .ok t => reply .done { s with dl := s.dl.restart now, dlLast := t }
  | .error f => .fault f

/-- DL_EXPIRE (R182). -/
def execDlExpire (s : State) : Host.Outcome State Fault Refusal := reply .done { s with dl := s.dl.expire }

/-- DL_EXPIRED (R180); only `tLast` is written (R73, log 12). -/
def execDlExpired (now : Nat) (s : State) : Host.Outcome State Fault Refusal :=
  match takeTime s.dlLast now with
  | .ok t => reply (.flag (s.dl.expired now)) { s with dlLast := t }
  | .error f => .fault f

end Sys2Proof.Machine
end

