-- ==== Sys2Proof/Machine/FrameAssembler.lean ====
section
/-! DEFINITION. The frame assembler (43_frame_assembler.md R160 to R168): its operations on an assembler, which the engine
shares, and the port's operations on the standalone assembler (R14). -/

namespace Sys2Proof.Machine

/-! ## On an assembler -/

/-- A start byte (R162): any partial frame is discarded and a new frame begins with `b`. -/
def Assembler.start (b : Byte) (a : Assembler) : Assembler := { a with buf := a.buf.set 0 (some b), len := 1 }

/-- A body byte inside a frame (R164). With `A.len = 9` there is no cell to write; no run reaches that while not ready
(R29, log 11). -/
def Assembler.append (b : Byte) (a : Assembler) : Assembler :=
  { a with buf := a.buf.setIfInBounds a.len.val (some b), len := a.len + 1 }

/-- FA_RESET (R168): the cells keep their values. -/
def Assembler.clear (a : Assembler) : Assembler := { a with len := 0, ready := false, okCRC := false, okSum := false }

/-- The check at completion (R165): the frame is exposed with both flags, or discarded when neither mode matches. -/
def Assembler.complete (a : Assembler) : Assembler :=
  if a.matchesCRC || a.matchesSum then
    { a with okCRC := a.matchesCRC, okSum := a.matchesSum, ready := true }
  else
    { a with len := 0, okCRC := false, okSum := false }

/-- FA_FEED (R160): the cases of R161 to R165 in the rule's order. A byte may complete the partial frame that is held, as R164
and R165 say, also where R169's second sentence, read of the bytes fed alone, would not have it (DEDUCED, log 29). -/
def Assembler.feed (b : Byte) (a : Assembler) : Assembler :=
  if a.ready then a
  else if b.getLsbD 7 then a.start b
  else if a.len = 0 then a
  else if (a.append b).len.val = Config.replyLen then (a.append b).complete
  else a.append b

/-- FA_VIEW (R167): none unless ready; the nine bytes and both flags. A cell that holds ⊥ while ready is a fault (log 10). -/
def Assembler.view (a : Assembler) : Except Fault (Option (Vector Byte 9 × Bool × Bool)) :=
  if a.ready then
    match a.frame? with
    | some f => .ok (some (f, a.okCRC, a.okSum))
    | none => .error .bottomRead
  else .ok none

/-! ## On the port -/

/-- FA_FEED (R160). -/
def execFaFeed (b : Byte) (s : State) : Host.Outcome State Fault Refusal :=
  reply .done { s with asm := s.asm.feed b }

/-- FA_READY (R166). -/
def execFaReady (s : State) : Host.Outcome State Fault Refusal := reply (.flag s.asm.ready) s

/-- FA_VIEW (R167). -/
def execFaView (s : State) : Host.Outcome State Fault Refusal :=
  match s.asm.view with
  | .ok v => reply (.view v) s
  | .error f => .fault f

/-- FA_RESET (R168). -/
def execFaReset (s : State) : Host.Outcome State Fault Refusal := reply .done { s with asm := s.asm.clear }

end Sys2Proof.Machine
end

