-- ==== Sys2Proof/Machine/RequestTracker.lean ====
section
/-! DEFINITION. The request tracker (45_request_tracker.md R201 to R208): its operations on a tracker, which the engine shares,
and the port's operations on the standalone tracker (R14), each with a time input checked against that unit's own `tLast`. -/

namespace Sys2Proof.Machine

/-! ## On a tracker -/

/-- RT_ARM (R201): accepted only from IDLE; a rejected arm changes nothing. -/
def Tracker.arm (payload : Vector Byte 3) (ctx : Ctx) (addr : Byte) (mode : Bool) (now : Nat) (t : Tracker) :
    Bool × Tracker :=
  if t.state = .idle then
    (true, { state := .armed, payload := #v[some payload[0], some payload[1], some payload[2]]
             ctx := some ctx, addr := some addr, mode := some mode
             dl := t.dl.restart now })
  else (false, t)

/-- RT_MARK_SENT (R202): ARMED to PENDING, and no other transition into PENDING. -/
def Tracker.markSent (t : Tracker) : Except Fault Tracker :=
  if t.state = .armed then .ok { t with state := .pending } else .error .trackerState

/-- RT_CLEAR (R203): the stored fields keep their values (R39). -/
def Tracker.clear (t : Tracker) : Tracker := { t with state := .idle }

/-! ## On the port -/

/-- RT_ARM (R201). `tLast` takes `now` even when the arm is rejected (R73, log 12). -/
def execRtArm (payload : Vector Byte 3) (ctx : Ctx) (addr : Byte) (mode : Bool) (now : Nat) (s : State) :
    Host.Outcome State Fault Refusal :=
  match takeTime s.trkLast now with
  | .ok t =>
    reply (.flag (s.trk.arm payload ctx addr mode now).1)
      { s with trk := (s.trk.arm payload ctx addr mode now).2, trkLast := t }
  | .error f => .fault f

/-- RT_MARK_SENT (R202). -/
def execRtMarkSent (s : State) : Host.Outcome State Fault Refusal :=
  match s.trk.markSent with
  | .ok t => reply .done { s with trk := t }
  | .error f => .fault f

/-- RT_CLEAR (R203). -/
def execRtClear (s : State) : Host.Outcome State Fault Refusal := reply .done { s with trk := s.trk.clear }

/-- RT_PENDING (R204). -/
def execRtPending (s : State) : Host.Outcome State Fault Refusal := reply (.flag s.trk.pending) s

/-- RT_EXPIRED (R205): DL_EXPIRED on `T.dl`, answered in every state. -/
def execRtExpired (now : Nat) (s : State) : Host.Outcome State Fault Refusal :=
  match takeTime s.trkLast now with
  | .ok t => reply (.flag (s.trk.dl.expired now)) { s with trkLast := t }
  | .error f => .fault f

/-- RT_RESET (R207): DL_RESET on `T.dl`. -/
def execRtReset (now : Nat) (s : State) : Host.Outcome State Fault Refusal :=
  match takeTime s.trkLast now with
  | .ok t => reply .done { s with trk := { s.trk with dl := s.trk.dl.restart now }, trkLast := t }
  | .error f => .fault f

/-- RT_EXPIRE (R208): DL_EXPIRE on `T.dl`. -/
def execRtExpire (s : State) : Host.Outcome State Fault Refusal :=
  reply .done { s with trk := { s.trk with dl := s.trk.dl.expire } }

end Sys2Proof.Machine
end

