-- ==== Sys2Proof/Machine/ProtocolEngine.lean ====
section
/-! DEFINITION. The protocol engine (46_protocol_engine.md R220 to R233) on its own assembler, tracker and poll deadline. Every
operation with a time input is checked against `E.tLast` once, before its own rule (R73, log 21). -/

namespace Sys2Proof.Machine

/-! ## Internal steps -/

/-- TransmitRequest (R222): the six-byte get-request frame of R83 goes to TX, then ARMED becomes PENDING. -/
def transmitRequest (s : State) : Except Fault State :=
  match s.eng.trk.wire? with
  | none => .error .bottomRead
  | some r =>
    match buildFrame r.addr Config.cmdGet r.mode 3 [r.flags, r.ctype, r.number] with
    | .error f => .error f
    | .ok bytes =>
      match s.eng.trk.markSent with
      | .error f => .error f
      | .ok t => .ok ((s.txWrite bytes).setEngTrk t)

/-- The set frame's payload (R82): flags byte, word0, word1, channel type, channel number. -/
def setPayload (ctype number : Byte) (value : Int) (xflags : Byte) : List Byte :=
  [valueFlags value xflags, word0 value, word1 value, ctype, number]

/-- The drain of R226: bytes go from RX to the assembler one at a time until it is ready or RX is empty. -/
def drain (a : Assembler) (rx : List Byte) : Assembler × List Byte :=
  match rx with
  | [] => (a, [])
  | b :: rest => if a.ready then (a, b :: rest) else drain (a.feed b) rest

/-- Terminal (R233): the context is read, the assembler reset, the tracker cleared, the outcome returned. -/
def terminal (o : PollOutcome) (s : State) : Except Fault (Option (PollOutcome × Ctx) × State) :=
  match readCell s.eng.trk.ctx with
  | .error f => .error f
  | .ok c => .ok (some (o, c), (s.setEngAsm s.eng.asm.clear).setEngTrk s.eng.trk.clear)

/-- Step 3 of R224, on the ready assembler: correlate, then Value (R228) or flush and Error (R229). Of a request that R306 lists
as never answered it gives Error too when the frame is foreign, as R229 says of any mismatch (DEDUCED, log 27). -/
def correlateReply (s : State) : Except Fault (Option (PollOutcome × Ctx) × State) :=
  match s.eng.asm.frame?, s.eng.trk.wire? with
  | some f, some r =>
    if correlates r f s.eng.asm.okCRC s.eng.asm.okSum then terminal (.value (decodeValue f[2] f[4] f[5])) s
    else terminal .error (s.setRx (rxFlush s.rx))
  | _, _ => .error .bottomRead

/-- Steps 1 to 3 of R224, in PENDING: the timeout before any byte is read (R225, R234), the drain (R226), the reply. -/
def pollPending (now : Nat) (s : State) : Except Fault (Option (PollOutcome × Ctx) × State) :=
  if s.eng.trk.dl.expired now then terminal .timedOut s
  else
    let drained := (s.setEngAsm (drain s.eng.asm s.rx).1).setRx (drain s.eng.asm s.rx).2
    if drained.eng.asm.ready then correlateReply drained else .ok (none, drained)

/-- Steps 4 and 5 of R224, in ARMED: send once the poll deadline has expired (R230), else nothing (R231). -/
def pollArmed (now : Nat) (s : State) : Except Fault (Option (PollOutcome × Ctx) × State) :=
  if s.eng.pollDl.expired now then
    match transmitRequest s with
    | .error f => .error f
    | .ok sent => .ok (none, sent.setPollDl (sent.eng.pollDl.restart now))
  else .ok (none, s)

/-! ## The operations' own effect, which GET shares (R238) -/

/-- PE_ASYNC_GET (R221): arm, then transmit at once when polling is disabled; the result is whether it was accepted. -/
def asyncGet (addr ctype number mode : Byte) (ctx : Ctx) (now : Nat) (s : State) : Except Fault (Bool × State) :=
  match takeTime s.eng.tLast now with
  | .error f => .error f
  | .ok t =>
    let armed := s.eng.trk.arm #v[mode, ctype, number] ctx addr s.eng.cfg.useCRC now
    let s' := (s.setEngLast t).setEngTrk armed.2
    if armed.1 && s'.eng.pollDisabled then
      match transmitRequest s' with
      | .error f => .error f
      | .ok sent => .ok (true, sent)
    else .ok (armed.1, s')

/-- PE_POLL (R224): the outcome and the request's context when ready, none otherwise. -/
def pollStep (now : Nat) (s : State) : Except Fault (Option (PollOutcome × Ctx) × State) :=
  match takeTime s.eng.tLast now with
  | .error f => .error f
  | .ok t =>
    match s.eng.trk.state with
    | .pending => pollPending now (s.setEngLast t)
    | .armed => pollArmed now (s.setEngLast t)
    | .idle => .ok (none, s.setEngLast t)

/-- The result triple of PE_POLL (R224, R232). -/
def pollResp (r : Option (PollOutcome × Ctx)) : Resp :=
  match r with
  | some (o, c) => .poll true (some o) (some c)
  | none => .poll false none none

/-! ## On the port -/

/-- PE_SET (R223): the eight-byte set frame of R82 goes to TX; no register of the engine changes. -/
def execPeSet (addr ctype number : Byte) (value : Int) (xflags : Byte) (s : State) : Host.Outcome State Fault Refusal :=
  match buildFrame addr Config.cmdSet s.eng.cfg.useCRC 5 (setPayload ctype number value xflags) with
  | .ok bytes => reply .done (s.txWrite bytes)
  | .error f => .fault f

/-- PE_ASYNC_GET (R221). -/
def execPeAsyncGet (addr ctype number mode : Byte) (ctx : Ctx) (now : Nat) (s : State) : Host.Outcome State Fault Refusal :=
  match asyncGet addr ctype number mode ctx now s with
  | .ok (accepted, s') => reply (.flag accepted) s'
  | .error f => .fault f

/-- PE_POLL (R224). -/
def execPePoll (now : Nat) (s : State) : Host.Outcome State Fault Refusal :=
  match pollStep now s with
  | .ok (r, s') => reply (pollResp r) s'
  | .error f => .fault f

end Sys2Proof.Machine
end

