-- ==== Sys2Proof/Machine/Dispatch.lean ====
section
/-! DEFINITION. The dispatch: one arm per operation of 30_encoding.md R90. -/

namespace Sys2Proof.Machine

def exec (i : Instr) (s : State) : Host.Outcome State Fault Refusal :=
  match i with
  -- CRC7 generator
  | .crcBegin => Sys2Proof.Machine.execCrcBegin s
  | .crcWrite b => Sys2Proof.Machine.execCrcWrite b s
  | .crcEnd => Sys2Proof.Machine.execCrcEnd s
  | .crcValue => Sys2Proof.Machine.execCrcValue s
  | .crcSpan n bytes => Sys2Proof.Machine.execCrcSpan n bytes s
  -- signed-value codec
  | .vcEnc value xflags => Sys2Proof.Machine.execVcEnc value xflags s
  | .vcDec flags w0 w1 => Sys2Proof.Machine.execVcDec flags w0 w1 s
  -- frame builder
  | .fbBuild addr cmd useCRC n payload => Sys2Proof.Machine.execFbBuild addr cmd useCRC n payload s
  -- frame assembler
  | .faFeed b => Sys2Proof.Machine.execFaFeed b s
  | .faReady => Sys2Proof.Machine.execFaReady s
  | .faView => Sys2Proof.Machine.execFaView s
  | .faReset => Sys2Proof.Machine.execFaReset s
  -- deadline timer
  | .dlReset now => Sys2Proof.Machine.execDlReset now s
  | .dlExpire => Sys2Proof.Machine.execDlExpire s
  | .dlExpired now => Sys2Proof.Machine.execDlExpired now s
  -- request tracker
  | .rtArm payload ctx addr mode now => Sys2Proof.Machine.execRtArm payload ctx addr mode now s
  | .rtMarkSent => Sys2Proof.Machine.execRtMarkSent s
  | .rtClear => Sys2Proof.Machine.execRtClear s
  | .rtPending => Sys2Proof.Machine.execRtPending s
  | .rtExpired now => Sys2Proof.Machine.execRtExpired now s
  | .rtReset now => Sys2Proof.Machine.execRtReset now s
  | .rtExpire => Sys2Proof.Machine.execRtExpire s
  -- protocol engine
  | .peSet addr ctype number value xflags => Sys2Proof.Machine.execPeSet addr ctype number value xflags s
  | .peAsyncGet addr ctype number mode ctx now => Sys2Proof.Machine.execPeAsyncGet addr ctype number mode ctx now s
  | .pePoll now => Sys2Proof.Machine.execPePoll now s

end Sys2Proof.Machine
end

