-- ==== Sys2Proof/Machine/Get.lean ====
section
/-! DEFINITION. The pseudo-operation GET (30_encoding.md R92; 46_protocol_engine.md R238), the host-run expansion of engine
operations. It has no op-select code and adds no state. Its beginning and each pass of its loop are inputs of their own, since
RX may grow between them (R63, log 13); `getRun` is the whole of it over the host's clock readings. -/

namespace Sys2Proof.Machine

/-- GET's beginning (R238): the poll deadline is forced expired, even if the call is then rejected (R239), and PE_ASYNC_GET
runs with context 0. A rejected call returns SENT_BUSY. -/
def getCall (addr ctype number mode : Byte) (now : Nat) (s : State) : Host.Outcome State Fault Refusal :=
  match asyncGet addr ctype number mode 0 now (s.setPollDl s.eng.pollDl.expire) with
  | .ok (accepted, s') => reply (if accepted then .getRunning else .getNum Config.sentinels.busy) s'
  | .error f => .fault f

/-- What a pass of GET's loop returns (R238): the number of the outcome when ready, else nothing yet. -/
def getResp (r : Option (PollOutcome × Ctx)) : Resp :=
  match r with
  | some (o, _) => .getNum o.num
  | none => .getRunning

/-- One pass of GET's loop (R238). -/
def getPoll (now : Nat) (s : State) : Host.Outcome State Fault Refusal :=
  match pollStep now s with
  | .ok (r, s') => reply (getResp r) s'
  | .error f => .fault f

/-- One round of GET's loop as seen from outside: the bytes the line delivers first, then the host's clock reading. -/
structure GetRound where
  bytes : List Byte
  now   : Nat
  deriving DecidableEq, Repr

/-- GET's loop over the rounds given (R238). It ends at the first round whose poll is ready; the state it answers holds
`getNum` then, and `getRunning` if the rounds ran out first. -/
def getLoop (rounds : List GetRound) (s : State) : Host.Outcome State Fault Refusal :=
  match rounds with
  | [] => .next s
  | r :: rest =>
    match getPoll r.now (s.rxAppend r.bytes) with
    | .next s' => if s'.resp = some .getRunning then getLoop rest s' else .next s'
    | .fault f => .fault f
    | .refused q => .refused q

/-- GET, whole (R238). -/
def getRun (addr ctype number mode : Byte) (now : Nat) (rounds : List GetRound) (s : State) :
    Host.Outcome State Fault Refusal :=
  match getCall addr ctype number mode now s with
  | .next s' => if s'.resp = some .getRunning then getLoop rounds s' else .next s'
  | .fault f => .fault f
  | .refused q => .refused q

end Sys2Proof.Machine
end

