-- ==== Sys2Proof/Machine/Port.lean ====
section
/-! DEFINITION. What the block does with one input: an operation on the command port (30_encoding.md R89, R91), bytes that
enter RX (20_memory.md R63) or that the host discards from it (70_reset_and_hazards.md R295), the host-run GET (R238), or
construction (70_reset_and_hazards.md R290). -/

namespace Sys2Proof.Machine

/-- An operation on the command port. An unassigned code is Fault(UNDEFINED_OP), before anything else is looked at (R91,
R263). -/
def runCommand (c : Command) (s : State) : Host.Outcome State Fault Refusal :=
  match decode c with
  | .ok i => exec i s
  | .error .unassignedOp => .fault .undefinedOp
  | .error .operandShape => .refused .operandShape

/-- One input, on the state from whose `inputs` it has been taken. -/
def takeInput (i : Input) (s : State) : Host.Outcome State Fault Refusal :=
  match i with
  | .command c => runCommand c s
  | .rxBytes bytes => .next (s.rxAppend bytes)
  | .rxDiscard count => .next (s.rxDiscard count)
  | .getCall addr ctype number mode now => getCall addr ctype number mode now s
  | .getPoll now => getPoll now s
  | .construct r => .next (State.construct r s.tx s.rx s.inputs)

end Sys2Proof.Machine
end

