-- ==== Sys2Proof/Machine/Step.lean ====
section
/-! DEFINITION. One step: the oldest input is taken and handled. There is no program counter and nothing is fetched from a
memory (10_state.md R44): operations arrive on the command port in the host's order. -/

namespace Sys2Proof.Machine

/-- One step. With no input the block is idle and holds its registers (60_exceptions.md R271). -/
def step (s : State) : Host.Outcome State Fault Refusal :=
  match s.inputs with
  | [] => .next s
  | i :: rest => takeInput i { s with inputs := rest }

/-- `s` with the operation of the word `w` as the next input: the host issues it before all that waits (log 4). -/
def State.withFetchWord (s : State) (nbits w : Nat) : State :=
  { s with inputs := .command (commandOfWord nbits w) :: s.inputs }

end Sys2Proof.Machine
end

