-- ==== Sys2Proof/Safety.lean ====
section
/-! DEFINITION. What counts as a safe run: the invariants the spec states between operations (10_state.md R29, R38, R39, R41,
R42; 46_protocol_engine.md R235), the faults of 60_exceptions.md R262 as a table, the host's discipline (70_reset_and_hazards.md
R295 to R300), requests that R306 says are never answered, and runs. -/

namespace Sys2Proof

open Machine

/-! ## Invariants -/

/-- R29 of an assembler, with R26 and R27: while ready the frame is whole, at least one mode matched and each flag says whether
its mode matches; while not ready at most eight bytes are held and both flags are false; every cell below `A.len` holds a byte,
whose bit 7 is set in cell 0 and clear in the others. -/
structure AssemblerInv (a : Assembler) : Prop where
  whole   : a.ready = true → a.len.val = 9 ∧ (a.okCRC = true ∨ a.okSum = true)
  flags   : a.ready = true → a.okCRC = a.matchesCRC ∧ a.okSum = a.matchesSum
  partly  : a.ready = false → a.len.val ≤ 8 ∧ a.okCRC = false ∧ a.okSum = false
  framing : ∀ i : Fin 9, i.val < a.len.val → ∃ b, a.buf[i] = some b ∧ b.getLsbD 7 = decide (i.val = 0)

/-- A deadline of the given duration (R31, R38, R41) whose start is no later than the unit's `tLast` (R30, R42, R73). -/
structure DeadlineInv (duration : Int) (last : Nat) (d : Deadline) : Prop where
  fixed   : d.duration = duration
  started : d.start ≤ last

/-- A tracker: outside IDLE every stored field holds a value (R39), and its deadline lasts `timeoutMs` (R38). -/
structure TrackerInv (timeoutMs : Int) (last : Nat) (t : Tracker) : Prop where
  stored   : t.state ≠ .idle → (∃ r, t.wire? = some r) ∧ ∃ c, t.ctx = some c
  deadline : DeadlineInv timeoutMs last t.dl

/-- The engine (R235, R41): its assembler is never ready between operations and is empty outside PENDING; a stored request's
mode is the configured one (R221); no request waits in ARMED when polling is disabled (R220, R221). -/
structure EngineInv (e : Engine) : Prop where
  asm      : AssemblerInv e.asm
  notReady : e.asm.ready = false
  empty    : e.trk.state ≠ .pending → e.asm.len = 0
  trk      : TrackerInv e.cfg.timeoutMs e.tLast e.trk
  mode     : e.trk.state ≠ .idle → e.trk.mode = some e.cfg.useCRC
  armed    : e.trk.state = .armed → e.pollDisabled = false
  pollDl   : DeadlineInv e.cfg.pollIntervalMs e.tLast e.pollDl

/-- The invariant of the block. -/
structure Inv (s : State) : Prop where
  asm : AssemblerInv s.asm
  dl  : s.dl.start ≤ s.dlLast
  trk : TrackerInv s.eng.cfg.timeoutMs s.trkLast s.trk
  eng : EngineInv s.eng

/-! ## Time inputs -/

/-- The time input of an operation, for those that have one (R12, R90). -/
def Instr.now? : Instr → Option Nat
  | .dlReset now | .dlExpired now => some now
  | .rtArm _ _ _ _ now | .rtExpired now | .rtReset now => some now
  | .peAsyncGet _ _ _ _ _ now | .pePoll now => some now
  | .crcBegin | .crcWrite _ | .crcEnd | .crcValue | .crcSpan _ _
  | .vcEnc _ _ | .vcDec _ _ _ | .fbBuild _ _ _ _ _
  | .faFeed _ | .faReady | .faView | .faReset
  | .dlExpire | .rtMarkSent | .rtClear | .rtPending | .rtExpire
  | .peSet _ _ _ _ _ => none

/-- The `tLast` of the unit an operation with a time input acts on (R42, R73); 0 for the others. -/
def Instr.clock (i : Instr) (s : State) : Nat :=
  match i with
  | .dlReset _ | .dlExpired _ => s.dlLast
  | .rtArm _ _ _ _ _ | .rtExpired _ | .rtReset _ => s.trkLast
  | .peAsyncGet _ _ _ _ _ _ | .pePoll _ => s.eng.tLast
  | .crcBegin | .crcWrite _ | .crcEnd | .crcValue | .crcSpan _ _
  | .vcEnc _ _ | .vcDec _ _ _ | .fbBuild _ _ _ _ _
  | .faFeed _ | .faReady | .faView | .faReset
  | .dlExpire | .rtMarkSent | .rtClear | .rtPending | .rtExpire
  | .peSet _ _ _ _ _ => 0

/-! ## The faults of R262 as a table -/

/-- The fault the table of R262 gives an operation in a state, in the order of R263; none where it completes. -/
def Instr.fault? (i : Instr) (s : State) : Option Fault :=
  match i with
  | .crcWrite _ | .crcEnd | .crcValue => if s.crc = none then some .crcUninit else none
  | .fbBuild _ _ _ n _ => if 10 < n + 3 then some .frameOverflow else none
  | .rtMarkSent => if s.trk.state = .armed then none else some .trackerState
  | .dlReset now | .dlExpired now => if now < s.dlLast then some .timeNotMonotonic else none
  | .rtArm _ _ _ _ now | .rtExpired now | .rtReset now => if now < s.trkLast then some .timeNotMonotonic else none
  | .peAsyncGet _ _ _ _ _ now | .pePoll now => if now < s.eng.tLast then some .timeNotMonotonic else none
  | .crcBegin | .crcSpan _ _ | .vcEnc _ _ | .vcDec _ _ _
  | .faFeed _ | .faReady | .faView | .faReset
  | .dlExpire | .rtClear | .rtPending | .rtExpire
  | .peSet _ _ _ _ _ => none

/-! ## Operations of one unit and of the engine (R14, R90) -/

/-- An engine operation: op-select 0x60 to 0x62. The others, 0x01 to 0x56, act on the standalone units (R14). -/
def Instr.isEngine : Instr → Bool
  | .peSet _ _ _ _ _ | .peAsyncGet _ _ _ _ _ _ | .pePoll _ => true
  | .crcBegin | .crcWrite _ | .crcEnd | .crcValue | .crcSpan _ _
  | .vcEnc _ _ | .vcDec _ _ _ | .fbBuild _ _ _ _ _
  | .faFeed _ | .faReady | .faView | .faReset
  | .dlReset _ | .dlExpire | .dlExpired _
  | .rtArm _ _ _ _ _ | .rtMarkSent | .rtClear | .rtPending | .rtExpired _ | .rtReset _ | .rtExpire => false

/-! ## Runs -/

/-- An assembler fed with the bytes of a list, in order (R160). -/
def feedAll (bytes : List Byte) (a : Assembler) : Assembler := bytes.foldl (fun a b => a.feed b) a

/-- A sequence of operations (R72: the composition of the operations' rules in issue order). -/
def execAll (is : List Instr) (s : State) : Host.Outcome State Fault Refusal :=
  match is with
  | [] => .next s
  | i :: rest =>
    match exec i s with
    | .next t => execAll rest t
    | .fault f => .fault f
    | .refused q => .refused q

/-- A request of the kinds R306 lists: the reply that echoes it has a byte that breaks the framing of R87. -/
def Unanswerable (r : WireRequest) : Prop :=
  r.addr.getLsbD 7 = false ∨ r.ctype.getLsbD 7 = true ∨ r.number.getLsbD 7 = true ∨ r.flags.getLsbD 7 = true ∨
    Config.cmdReply.getLsbD 7 = true

/-- A frame is foreign to a request when a field that R227 compares is not the request's, whatever its trailer. -/
def Foreign (r : WireRequest) (f : Vector Byte 9) : Prop :=
  f[0] ≠ r.addr ∨ f[1] ≠ Config.cmdReply ∨ f[2] &&& 0xFE ≠ r.flags &&& 0xFE ∨ f[6] ≠ r.ctype ∨ f[7] ≠ r.number

/-- A request is accepted with context `c` at time `now`, by PE_ASYNC_GET (R221) or by the one that GET begins with (R238). -/
def Accepts (c : Ctx) (now : Nat) (s t : State) : Prop :=
  (∃ addr ctype number mode, exec (.peAsyncGet addr ctype number mode c now) s = .next t ∧ t.resp = some (.flag true)) ∨
  (c = 0 ∧ ∃ addr ctype number mode, getCall addr ctype number mode now s = .next t ∧ t.resp = some .getRunning)

/-- The input `i`, taken with the state `t` after it, delivered an outcome: a ready PE_POLL (R232) or a pass of GET that
returned (R238). A rejected GET delivers none: its Busy is no outcome of the request (R260). -/
def Delivers (i : Input) (t : State) : Prop :=
  match i with
  | .command _ => ∃ o c, t.resp = some (.poll true o c)
  | .getPoll _ => ∃ x, t.resp = some (.getNum x)
  | .rxBytes _ | .rxDiscard _ | .getCall _ _ _ _ _ | .construct _ => False

/-- A step that neither constructs the block anew nor delivers an outcome; everything else may happen in it. -/
def QuietStep (s t : State) : Prop :=
  ∀ i rest, s.inputs = i :: rest → (∀ r, i ≠ .construct r) ∧ ¬ Delivers i t

/-- The first `k` steps from `s`, as far as they go, are quiet. -/
def Quiet (k : Nat) (s : State) : Prop :=
  match k with
  | 0 => True
  | k + 1 => ∀ t, step s = .next t → QuietStep s t ∧ Quiet k t

/-- What the host owes before it gives an input (R295): an assigned code with operands of its types, and no fault condition of
R262; a time no smaller than the engine's last for GET. The environment and construction owe nothing. -/
def hostObeys (i : Input) (s : State) : Prop :=
  match i with
  | .command c => ∃ op, decode c = .ok op ∧ op.fault? s = none
  | .getCall _ _ _ _ now | .getPoll now => s.eng.tLast ≤ now
  | .rxBytes _ | .rxDiscard _ | .construct _ => True

/-- The host obeys at every input of the list, taken one after the other from `s`. -/
def Disciplined (is : List Input) (s : State) : Prop :=
  match is with
  | [] => True
  | i :: rest =>
    hostObeys i { s with inputs := rest } ∧ ∀ t, takeInput i { s with inputs := rest } = .next t → Disciplined rest t

/-- A safe run: `k` steps end in a state, with no fault and no refusal. -/
def SafeRun (k : Nat) (s : State) : Prop := ∃ t, core.run k s = .next t

end Sys2Proof
end

