-- ==== Sys2Proof/Certificates/Slice0/Obligations.lean ====
section
/-! DEFINITION. The statements for the provers, in the order of OBLIGATIONS.json. The spec's `return v` is the field `resp` of
the next state (log 5), its Fault(k) is `Host.Outcome.fault` (log 6), and ⊥ is `none` (log 10). A next state written as
`{ s with … }` says the frame as well: every register, both streams and the waiting inputs that it does not name are as
before. -/

open Sys2Proof Sys2Proof.Machine

/-! ## Construction and configuration -/

/-- R291: the value of every register after construction, for all reset inputs, and the two streams as they were. -/
def Obligations.ConstructionSetsEveryRegister : Prop :=
  ∀ (r : ResetInputs) (tx rx : List Byte) (ins : List Input) (s : State), s = State.construct r tx rx ins →
    s.crc = none ∧ Config.replyLen = 9 ∧
    (∀ a ∈ [s.asm, s.eng.asm],
      (∀ i : Fin 9, a.buf[i] = none) ∧ a.len = 0 ∧ a.ready = false ∧ a.okCRC = false ∧ a.okSum = false) ∧
    (∀ t ∈ [s.trk, s.eng.trk],
      t.state = .idle ∧ (∀ i : Fin 3, t.payload[i] = none) ∧ t.ctx = none ∧ t.addr = none ∧ t.mode = none ∧
      t.dl.duration = s.eng.cfg.timeoutMs) ∧
    (∀ d ∈ [s.dl, s.trk.dl, s.eng.trk.dl, s.eng.pollDl], d.start = r.t0 ∧ d.forced = false) ∧
    s.dl.duration = r.saDlDuration ∧ s.eng.pollDl.duration = s.eng.cfg.pollIntervalMs ∧
    s.eng.cfg = EngineCfg.latch r ∧
    s.dlLast = r.t0 ∧ s.trkLast = r.t0 ∧ s.eng.tLast = r.t0 ∧
    s.tx = tx ∧ s.rx = rx

/-- R40: the configuration is latched at construction, with the document's defaults, and no operation writes it; an interval
of at most 0 disables polling and a negative timeout never expires. -/
def Obligations.ConfigurationIsLatchedAndNeverWritten : Prop :=
  (∀ (r : ResetInputs) (tx rx : List Byte) (ins : List Input),
    let cfg := (State.construct r tx rx ins).eng.cfg
    (r.pollIntervalMs = none → cfg.pollIntervalMs = 100) ∧ (∀ v, r.pollIntervalMs = some v → cfg.pollIntervalMs = v) ∧
    (r.timeoutMs = none → cfg.timeoutMs = 3000) ∧ (∀ v, r.timeoutMs = some v → cfg.timeoutMs = v) ∧
    (r.useCRC = none → cfg.useCRC = true) ∧ (∀ v, r.useCRC = some v → cfg.useCRC = v)) ∧
  (∀ (i : Instr) (s t : State), exec i s = .next t → t.eng.cfg = s.eng.cfg) ∧
  (∀ e : Engine, e.pollDisabled = true ↔ e.cfg.pollIntervalMs ≤ 0) ∧
  (∀ (d : Deadline) (now : Nat), d.duration < 0 → d.expired now = false)

/-- The invariant of R29, R38, R39, R41 and R235 holds after construction, whatever the reset inputs and the streams. -/
def Obligations.InvariantHoldsAfterConstruction : Prop :=
  (∀ (r : ResetInputs) (tx rx : List Byte) (ins : List Input), Inv (State.construct r tx rx ins)) ∧ Inv State.reset

/-- R29 (with R38, R39, R41 and R235, and start ≤ tLast, the spec's consequence of R73): every step keeps the invariant, from
every state that has it, whatever input is taken. -/
def Obligations.EveryStepKeepsTheInvariant : Prop :=
  ∀ s t : State, Inv s → step s = .next t → Inv t

/-! ## The command port -/

/-- Every well-formed instruction is decoded from its own command, and a command that decodes is the command of the instruction
it decodes to: no operand is dropped and no command has two readings. -/
def Obligations.DecodeAndEncodeAgree : Prop :=
  (∀ i : Instr, i.wf = true → decode (encode i) = .ok i) ∧
  (∀ (c : Command) (i : Instr), decode c = .ok i → i.wf = true ∧ encode i = c)

/-- R91: the codes of R91's list, and only those, are in no row of the table, and an operation with one of them, whatever its
operands, is Fault(UNDEFINED_OP). A payload over MAX_PAYLOAD is left to FB_BUILD's own rule. -/
def Obligations.UnassignedCodesFault : Prop :=
  (∀ b : Byte, Op.ofCode b = none ↔
    (b.toNat = 0 ∨ (0x06 ≤ b.toNat ∧ b.toNat ≤ 0x0F) ∨ (0x12 ≤ b.toNat ∧ b.toNat ≤ 0x1F) ∨
      (0x21 ≤ b.toNat ∧ b.toNat ≤ 0x2F) ∨ (0x34 ≤ b.toNat ∧ b.toNat ≤ 0x3F) ∨ (0x43 ≤ b.toNat ∧ b.toNat ≤ 0x4F) ∨
      (0x57 ≤ b.toNat ∧ b.toNat ≤ 0x5F) ∨ 0x63 ≤ b.toNat)) ∧
  (∀ (s : State) (c : Command) (rest : List Input), s.inputs = .command c :: rest → Op.ofCode c.op = none →
    step s = .fault .undefinedOp) ∧
  (∀ (addr cmd : Byte) (u : Bool) (n : Nat) (payload : List Byte) (s : State), payload.length = n → 7 < n →
    decode ⟨0x20, [.u8 addr, .u8 cmd, .bool u, .nat n, .bytes payload]⟩ = .ok (.fbBuild addr cmd u n payload) ∧
    exec (.fbBuild addr cmd u n payload) s = .fault .frameOverflow)

/-- A step whose next input is a command that decodes runs the decoded instruction on the state with that input taken, and
nothing else; so does a step on the command of any well-formed instruction. -/
def Obligations.StepRunsTheDecodedInstruction : Prop :=
  (∀ (s : State) (c : Command) (rest : List Input) (i : Instr), s.inputs = .command c :: rest → decode c = .ok i →
    step s = exec i { s with inputs := rest }) ∧
  (∀ (s : State) (rest : List Input) (i : Instr), s.inputs = .command (encode i) :: rest → i.wf = true →
    step s = exec i { s with inputs := rest })

/-- The inputs that are no operation: with none waiting nothing changes (R271), and bytes of the environment go to RX's tail
(R63), bytes the host discards leave its head (R295; the form is the model's, log 28), and construction leaves the streams as
they are (R46). -/
def Obligations.IdleAndReceiveSteps : Prop :=
  (∀ s : State, s.inputs = [] → step s = .next s) ∧
  (∀ (s : State) (bytes : List Byte) (rest : List Input), s.inputs = .rxBytes bytes :: rest →
    step s = .next { s with rx := s.rx ++ bytes, inputs := rest }) ∧
  (∀ (s : State) (count : Nat) (rest : List Input), s.inputs = .rxDiscard count :: rest →
    step s = .next { s with rx := s.rx.drop count, inputs := rest }) ∧
  (∀ (s : State) (r : ResetInputs) (rest : List Input), s.inputs = .construct r :: rest →
    step s = .next (State.construct r s.tx s.rx rest))

/-- Commands written out from the table of R90, one of each unit at least, decode to what they stand for. -/
def Obligations.WrittenCommandsDecode : Prop :=
  decode ⟨0b00000010, [.u8 0x7F]⟩ = .ok (.crcWrite 0x7F) ∧
  decode ⟨0b00010000, [.int (-500), .u8 0x02]⟩ = .ok (.vcEnc (-500) 0x02) ∧
  decode ⟨0b00100000, [.u8 0x80, .u8 0x28, .bool true, .nat 1, .bytes [0x05]]⟩ = .ok (.fbBuild 0x80 0x28 true 1 [0x05]) ∧
  decode ⟨0b00110000, [.u8 0x80]⟩ = .ok (.faFeed 0x80) ∧
  decode ⟨0b01000010, [.nat 3000]⟩ = .ok (.dlExpired 3000) ∧
  decode ⟨0b01010000, [.bytes [0x00, 0x4D, 0x01], .ctx 7, .u8 0x80, .bool true, .nat 10]⟩ =
    .ok (.rtArm #v[0x00, 0x4D, 0x01] 7 0x80 true 10) ∧
  decode ⟨0b01100000, [.u8 0x80, .u8 0x4D, .u8 0x01, .int 2047, .u8 0x00]⟩ = .ok (.peSet 0x80 0x4D 0x01 2047 0x00) ∧
  decode ⟨0b01100010, [.nat 5]⟩ = .ok (.pePoll 5)

/-! ## CRC7 generator -/

/-- R101 to R104: the four instance operations, in every state, with the fault where `C.crc` holds ⊥. -/
def Obligations.CrcRegisterOperations : Prop :=
  (∀ s : State, exec .crcBegin s = .next { s with crc := some 0x7F, resp := some .done }) ∧
  (∀ (s : State) (b : Byte), s.crc = none →
    exec (.crcWrite b) s = .fault .crcUninit ∧ exec .crcEnd s = .fault .crcUninit ∧
    exec .crcValue s = .fault .crcUninit) ∧
  (∀ (s : State) (b : Byte) (r : U7), s.crc = some r →
    exec (.crcWrite b) s = .next { s with crc := some (step8 r b), resp := some .done } ∧
    exec .crcEnd s = .next { s with crc := some (r ^^^ 0x7F), resp := some .done } ∧
    exec .crcValue s = .next { s with resp := some (.code r) }) ∧
  (∀ b : Byte, encode .crcBegin = ⟨0x01, []⟩ ∧ encode (.crcWrite b) = ⟨0x02, [.u8 b]⟩ ∧
    encode .crcEnd = ⟨0x03, []⟩ ∧ encode .crcValue = ⟨0x04, []⟩) ∧
  step8 0x7F 0x00 = 0x6D ∧ (0x6D : U7) ^^^ 0x7F = 0x12

/-- R106 with R100: each of the eight steps is the shift with the feedback of the low bit; after the first the high bit is
clear and stays so, so `step8` loses nothing by answering seven bits, and every code is below 128. -/
def Obligations.CrcStepStaysSevenBits : Prop :=
  (∀ (c : Byte) (i : Nat), i < 8 →
    (crcShift c).getLsbD i = (c.getLsbD (i + 1) ^^ (c.getLsbD 0 && (0x76 : Byte).getLsbD i))) ∧
  (∀ (c : Byte) (k : Nat), (crcShifts (k + 1) c).getLsbD 7 = false) ∧
  (∀ (r : U7) (b : Byte), (step8wide r b).toNat < 128 ∧ (step8 r b).toNat = (step8wide r b).toNat) ∧
  (∀ s : List Byte, (crc7 s).toNat < 128)

/-- R105: CRC_SPAN answers `crc7` of its bytes and touches no register; the same code comes from CRC_BEGIN, CRC_WRITE of each
byte in order, CRC_END and CRC_VALUE, from any state (R107's order). -/
def Obligations.CrcSpanEqualsBeginWriteEndValue : Prop :=
  (∀ (bytes : List Byte) (s : State),
    exec (.crcSpan bytes.length bytes) s = .next { s with resp := some (.code (crc7 bytes)) }) ∧
  (∀ (bytes : List Byte) (s : State),
    execAll ([.crcBegin] ++ bytes.map .crcWrite ++ [.crcEnd, .crcValue]) s =
      .next { s with crc := some (crc7 bytes), resp := some (.code (crc7 bytes)) }) ∧
  (∀ bytes : List Byte, encode (.crcSpan bytes.length bytes) = ⟨0x05, [.nat bytes.length, .bytes bytes]⟩) ∧
  crc7 [] = 0x00 ∧ crc7 [0x31, 0x32, 0x33, 0x34, 0x35, 0x36, 0x37, 0x38, 0x39] = 0x32

/-- R108: two byte sequences of equal length that differ in exactly one bit have different codes. -/
def Obligations.CrcDetectsEverySingleBitError : Prop :=
  ∀ (before after : List Byte) (b : Byte) (k : Nat), k < 8 →
    crc7 (before ++ [b] ++ after) ≠ crc7 (before ++ [b ^^^ (1#8 <<< k)] ++ after)

/-! ## Signed-value codec -/

/-- R120 and R121: VC_ENC saturates, sets the sign bit on top of the extra flags and splits the magnitude, in every state. -/
def Obligations.EncodeSaturatesAndSplits : Prop :=
  ∀ (s : State) (v : Int) (x : Byte), ∃ f w0 w1 : Byte,
    exec (.vcEnc v x) s = .next { s with resp := some (.words f w0 w1) } ∧
    encode (.vcEnc v x) = ⟨0x10, [.int v, .u8 x]⟩ ∧
    (v < 0 → f = x ||| 0x01) ∧ (0 ≤ v → f = x) ∧
    (-16383 ≤ v → v ≤ 16383 → w0.toNat = v.natAbs % 128 ∧ w1.toNat = v.natAbs / 128) ∧
    (v < -16383 ∨ 16383 < v → w0 = 0x7F ∧ w1 = 0x7F)

/-- R122: VC_DEC's literal formula as an integer, in every state; bits 7..1 of the flags are ignored. -/
def Obligations.DecodeIsTheLiteralFormula : Prop :=
  ∀ (s : State) (f w0 w1 : Byte), ∃ v : I16,
    exec (.vcDec f w0 w1) s = .next { s with resp := some (.value v) } ∧
    encode (.vcDec f w0 w1) = ⟨0x11, [.u8 f, .u8 w0, .u8 w1]⟩ ∧
    (f.getLsbD 0 = false → v.toInt = ((w0.toNat ||| w1.toNat * 128 : Nat) : Int)) ∧
    (f.getLsbD 0 = true → v.toInt = -((w0.toNat ||| w1.toNat * 128 : Nat) : Int)) ∧
    (w0.getLsbD 7 = false → w1.getLsbD 7 = false → -16383 ≤ v.toInt ∧ v.toInt ≤ 16383)

/-- R123: VC_DEC of what VC_ENC returned gives the value back, saturated; odd extra flags negate a value that is not
negative. -/
def Obligations.CodecRoundTrip : Prop :=
  ∀ (s t u : State) (v : Int) (x f w0 w1 : Byte) (r : I16),
    exec (.vcEnc v x) s = .next t → t.resp = some (.words f w0 w1) →
    exec (.vcDec f w0 w1) t = .next u → u.resp = some (.value r) →
    (x.getLsbD 0 = false → r.toInt = max (-16383) (min 16383 v)) ∧
    (x.getLsbD 0 = false → -16383 ≤ v → v ≤ 16383 → r.toInt = v) ∧
    (x.getLsbD 0 = true → 0 ≤ max (-16383) (min 16383 v) → r.toInt = -max (-16383) (min 16383 v))

/-- R124: the encoder's range. -/
def Obligations.EncoderRange : Prop :=
  ∀ (s t : State) (v : Int) (x f w0 w1 : Byte), exec (.vcEnc v x) s = .next t → t.resp = some (.words f w0 w1) →
    (∀ i, 1 ≤ i → i < 8 → f.getLsbD i = x.getLsbD i) ∧
    w0.toNat ≤ 0x7F ∧ w1.toNat ≤ 0x7F ∧ w0.toNat + 128 * w1.toNat ≤ 16383

/-! ## Frame builder -/

/-- R140, R141, R143 and R144: FB_BUILD of at most seven payload bytes answers address, command, payload and the trailer of the
mode, whose bit 7 is clear, and changes nothing else; of more, it is Fault(FRAME_OVERFLOW). -/
def Obligations.BuildLaysOutTheFrame : Prop :=
  ∀ (s : State) (addr cmd : Byte) (u : Bool) (payload : List Byte),
    (payload.length ≤ 7 → ∃ t : Byte,
      exec (.fbBuild addr cmd u payload.length payload) s =
        .next { s with resp := some (.frame (addr :: cmd :: payload ++ [t])) } ∧
      t.getLsbD 7 = false ∧
      (u = true → t = (crc7 (addr :: cmd :: payload)).setWidth 8) ∧
      (u = false → t = (Config.checksum (addr :: cmd :: payload)).setWidth 8)) ∧
    (7 < payload.length → exec (.fbBuild addr cmd u payload.length payload) s = .fault .frameOverflow) ∧
    encode (.fbBuild addr cmd u payload.length payload) =
      ⟨0x20, [.u8 addr, .u8 cmd, .bool u, .nat payload.length, .bytes payload]⟩

/-! ## Frame assembler -/

/-- R161, R162, R163 and, short of the ninth byte, R164: what FA_FEED does with a byte, in every state. -/
def Obligations.FeedDropsStartsAndAppends : Prop :=
  ∀ (s : State) (b : Byte),
    (s.asm.ready = true → exec (.faFeed b) s = .next { s with resp := some .done }) ∧
    (s.asm.ready = false → b.getLsbD 7 = true → ∃ a : Assembler,
      exec (.faFeed b) s = .next { s with asm := a, resp := some .done } ∧
      a.len.val = 1 ∧ a.buf[0] = some b ∧ (∀ i : Fin 9, i.val ≠ 0 → a.buf[i] = s.asm.buf[i]) ∧
      a.ready = false ∧ a.okCRC = s.asm.okCRC ∧ a.okSum = s.asm.okSum) ∧
    (s.asm.ready = false → b.getLsbD 7 = false → s.asm.len.val = 0 →
      exec (.faFeed b) s = .next { s with resp := some .done }) ∧
    (s.asm.ready = false → b.getLsbD 7 = false → 1 ≤ s.asm.len.val → s.asm.len.val ≤ 7 → ∃ a : Assembler,
      exec (.faFeed b) s = .next { s with asm := a, resp := some .done } ∧
      a.len.val = s.asm.len.val + 1 ∧
      (∀ i : Fin 9, a.buf[i] = if i.val = s.asm.len.val then some b else s.asm.buf[i]) ∧
      a.ready = false ∧ a.okCRC = s.asm.okCRC ∧ a.okSum = s.asm.okSum)

/-- R165: the ninth byte completes the frame, which is exposed with both flags when its trailer matches a mode and discarded
when it matches neither. -/
def Obligations.NinthByteChecksTheTrailer : Prop :=
  ∀ (s : State) (b : Byte) (body : Vector Byte 8),
    s.asm.ready = false → b.getLsbD 7 = false → s.asm.len.val = 8 → (∀ i : Fin 8, s.asm.buf[i.val] = some body[i]) →
    ∃ a : Assembler, exec (.faFeed b) s = .next { s with asm := a, resp := some .done } ∧
      (∀ i : Fin 9, a.buf[i] = if i.val = 8 then some b else s.asm.buf[i]) ∧
      (b = (crc7 body.toList).setWidth 8 ∨ b = (Config.checksum body.toList).setWidth 8 →
        a.len.val = 9 ∧ a.ready = true ∧ (a.okCRC = true ↔ b = (crc7 body.toList).setWidth 8) ∧
        (a.okSum = true ↔ b = (Config.checksum body.toList).setWidth 8)) ∧
      (b ≠ (crc7 body.toList).setWidth 8 → b ≠ (Config.checksum body.toList).setWidth 8 →
        a.len.val = 0 ∧ a.ready = false ∧ a.okCRC = false ∧ a.okSum = false)

/-- R166, R167 and R168: reading the ready flag and the frame changes nothing; FA_RESET clears length and flags and keeps the
cells. -/
def Obligations.ReadyViewAndReset : Prop :=
  (∀ s : State, exec .faReady s = .next { s with resp := some (.flag s.asm.ready) }) ∧
  (∀ s : State, s.asm.ready = false → exec .faView s = .next { s with resp := some (.view none) }) ∧
  (∀ (s : State) (f : Vector Byte 9), s.asm.ready = true → (∀ i : Fin 9, s.asm.buf[i] = some f[i]) →
    exec .faView s = .next { s with resp := some (.view (some (f, s.asm.okCRC, s.asm.okSum))) }) ∧
  (∀ s : State, exec .faReset s = .next { s with
    asm := { buf := s.asm.buf, len := 0, ready := false, okCRC := false, okSum := false }, resp := some .done }) ∧
  encode .faReady = ⟨0x31, []⟩ ∧ encode .faView = ⟨0x32, []⟩ ∧ encode .faReset = ⟨0x33, []⟩

/-- Resynchronization (R169's first sentence): after any bytes that did not themselves make the assembler ready, the nine bytes
of a well-framed frame whose trailer matches a mode leave it ready with exactly those bytes. -/
def Obligations.AssemblerResynchronizes : Prop :=
  ∀ (s : State) (lead : List Byte) (f : Vector Byte 9),
    (∀ p t, p <+: lead → execAll (p.map .faFeed) s = .next t → t.asm.ready = false) →
    f[0].getLsbD 7 = true → (∀ i : Fin 9, i.val ≠ 0 → f[i].getLsbD 7 = false) →
    (f[8] = (crc7 (f.toList.take 8)).setWidth 8 ∨ f[8] = (Config.checksum (f.toList.take 8)).setWidth 8) →
    ∃ t, execAll ((lead ++ f.toList).map .faFeed) s = .next t ∧ t.asm.ready = true ∧ ∀ i : Fin 9, t.asm.buf[i] = some f[i]

/-! ## Deadline timer and time -/

/-- R180, R181 and R182: the three operations on the standalone deadline, in every state. -/
def Obligations.DeadlineOperations : Prop :=
  (∀ (s : State) (now : Nat), s.dlLast ≤ now →
    exec (.dlReset now) s = .next { s with
      dl := { start := now, duration := s.dl.duration, forced := false }, dlLast := now, resp := some .done }) ∧
  (∀ s : State, exec .dlExpire s = .next { s with
      dl := { start := s.dl.start, duration := s.dl.duration, forced := true }, resp := some .done }) ∧
  (∀ (s : State) (now : Nat), s.dlLast ≤ now → ∃ e : Bool,
    exec (.dlExpired now) s = .next { s with dlLast := now, resp := some (.flag e) } ∧
    (e = true ↔ 0 ≤ s.dl.duration ∧ (s.dl.forced = true ∨ s.dl.duration ≤ (now : Int) - (s.dl.start : Int)))) ∧
  (∀ (s : State) (now : Nat), now < s.dlLast →
    exec (.dlReset now) s = .fault .timeNotMonotonic ∧ exec (.dlExpired now) s = .fault .timeNotMonotonic) ∧
  (∀ now, encode (.dlReset now) = ⟨0x40, [.nat now]⟩ ∧ encode .dlExpire = ⟨0x41, []⟩ ∧
    encode (.dlExpired now) = ⟨0x42, [.nat now]⟩)

/-- R183: an infinite duration overrides a forced expiry; the flag is set all the same. -/
def Obligations.InfiniteOverridesForcedExpiry : Prop :=
  ∀ (s : State) (now : Nat), s.dl.duration < 0 → s.dlLast ≤ now →
    ∃ t u, exec .dlExpire s = .next t ∧ t.dl.forced = true ∧
      exec (.dlExpired now) t = .next u ∧ u.resp = some (.flag false)

/-- R185: expiry is monotone in time, and no operation but DL_RESET undoes it. -/
def Obligations.ExpiryIsMonotone : Prop :=
  (∀ (d : Deadline) (n m : Nat), n ≤ m → d.expired n = true → d.expired m = true) ∧
  (∀ (i : Instr) (s t : State) (n m : Nat), exec i s = .next t → (∀ now, i ≠ .dlReset now) → n ≤ m →
    s.dl.expired n = true → t.dl.expired m = true)

/-- R184: elapsed time is `now - start`; a counter of w bits gives it exactly while it is below 2^w. -/
def Obligations.FiniteCounterAgreesBelowItsRange : Prop :=
  ∀ w now start : Nat, start ≤ now →
    ((elapsedFinite w now start : Int) = (now : Int) - (start : Int) ↔ now - start < 2 ^ w)

/-- R73: an operation whose time is below its unit's `tLast` faults and any other leaves `tLast` at its time; and no operation
ever moves a `tLast` back (R42). -/
def Obligations.TimeInputsAreMonotone : Prop :=
  (∀ (i : Instr) (s : State) (n : Nat), i.now? = some n → n < i.clock s → exec i s = .fault .timeNotMonotonic) ∧
  (∀ (i : Instr) (s t : State) (n : Nat), i.now? = some n → exec i s = .next t → i.clock t = n) ∧
  (∀ (i : Instr) (s t : State), exec i s = .next t →
    s.dlLast ≤ t.dlLast ∧ s.trkLast ≤ t.trkLast ∧ s.eng.tLast ≤ t.eng.tLast)

/-! ## Request tracker -/

/-- R201: RT_ARM stores the request only from IDLE, with the deadline started at the arm; outside IDLE it answers false and
writes nothing but the `tLast` of R73. -/
def Obligations.ArmStoresOnlyFromIdle : Prop :=
  ∀ (s : State) (p : Vector Byte 3) (c : Ctx) (addr : Byte) (m : Bool) (now : Nat),
    (s.trkLast ≤ now → s.trk.state = .idle → ∃ p' : Vector (Option Byte) 3,
      exec (.rtArm p c addr m now) s = .next { s with
        trk := { state := .armed, payload := p', ctx := some c, addr := some addr, mode := some m
                 dl := { start := now, duration := s.trk.dl.duration, forced := false } }
        trkLast := now, resp := some (.flag true) } ∧ ∀ i : Fin 3, p'[i] = some p[i]) ∧
    (s.trkLast ≤ now → s.trk.state ≠ .idle →
      exec (.rtArm p c addr m now) s = .next { s with trkLast := now, resp := some (.flag false) }) ∧
    (now < s.trkLast → exec (.rtArm p c addr m now) s = .fault .timeNotMonotonic) ∧
    encode (.rtArm p c addr m now) = ⟨0x50, [.bytes p.toList, .ctx c, .u8 addr, .bool m, .nat now]⟩

/-- R202, R203, R204, R205, R207 and R208: the tracker's other operations, in every state. -/
def Obligations.TrackerOperations : Prop :=
  (∀ s : State, s.trk.state = .armed →
    exec .rtMarkSent s = .next { s with trk := { s.trk with state := .pending }, resp := some .done }) ∧
  (∀ s : State, s.trk.state ≠ .armed → exec .rtMarkSent s = .fault .trackerState) ∧
  (∀ s : State, exec .rtClear s = .next { s with trk := { s.trk with state := .idle }, resp := some .done }) ∧
  (∀ s : State, exec .rtPending s = .next { s with resp := some (.flag (decide (s.trk.state = .pending))) }) ∧
  (∀ (s : State) (now : Nat), s.trkLast ≤ now → ∃ e : Bool,
    exec (.rtExpired now) s = .next { s with trkLast := now, resp := some (.flag e) } ∧
    (e = true ↔ 0 ≤ s.trk.dl.duration ∧
      (s.trk.dl.forced = true ∨ s.trk.dl.duration ≤ (now : Int) - (s.trk.dl.start : Int)))) ∧
  (∀ (s : State) (now : Nat), s.trkLast ≤ now →
    exec (.rtReset now) s = .next { s with
      trk := { s.trk with dl := { s.trk.dl with start := now, forced := false } }, trkLast := now, resp := some .done }) ∧
  (∀ (s : State) (now : Nat), now < s.trkLast →
    exec (.rtExpired now) s = .fault .timeNotMonotonic ∧ exec (.rtReset now) s = .fault .timeNotMonotonic) ∧
  (∀ s : State, exec .rtExpire s = .next { s with
    trk := { s.trk with dl := { s.trk.dl with forced := true } }, resp := some .done }) ∧
  (∀ now, encode .rtMarkSent = ⟨0x51, []⟩ ∧ encode .rtClear = ⟨0x52, []⟩ ∧ encode .rtPending = ⟨0x53, []⟩ ∧
    encode (.rtExpired now) = ⟨0x54, [.nat now]⟩ ∧ encode (.rtReset now) = ⟨0x55, [.nat now]⟩ ∧
    encode .rtExpire = ⟨0x56, []⟩)

/-- R206: the transitions of `T.state`, over ALL operations: what each leaves the standalone tracker's state at, with RT_ARM's
answer and RT_MARK_SENT's fault. -/
def Obligations.TrackerStateTransitions : Prop :=
  (∀ (i : Instr) (s t : State), exec i s = .next t →
    ((∃ p c a m now, i = .rtArm p c a m now) ∧ s.trk.state = .idle ∧ t.trk.state = .armed ∧ t.resp = some (.flag true)) ∨
    ((∃ p c a m now, i = .rtArm p c a m now) ∧ s.trk.state ≠ .idle ∧ t.trk.state = s.trk.state ∧
      t.resp = some (.flag false)) ∨
    (i = .rtMarkSent ∧ s.trk.state = .armed ∧ t.trk.state = .pending) ∨
    (i = .rtClear ∧ t.trk.state = .idle) ∨
    ((∀ p c a m now, i ≠ .rtArm p c a m now) ∧ i ≠ .rtMarkSent ∧ i ≠ .rtClear ∧ t.trk.state = s.trk.state)) ∧
  (∀ s : State, s.trk.state ≠ .armed → exec .rtMarkSent s = .fault .trackerState)

/-- R209: once RT_ARM has answered true, every later RT_ARM answers false and leaves the tracker alone, after any operations
that hold no RT_CLEAR. -/
def Obligations.TrackerMutualExclusion : Prop :=
  ∀ (p p' : Vector Byte 3) (c c' : Ctx) (a a' : Byte) (m m' : Bool) (n n' : Nat) (is : List Instr) (s t u v : State),
    exec (.rtArm p c a m n) s = .next t → t.resp = some (.flag true) →
    .rtClear ∉ is → execAll is t = .next u → exec (.rtArm p' c' a' m' n') u = .next v →
    v.resp = some (.flag false) ∧ v.trk = u.trk

/-! ## Protocol engine: set and get -/

/-- R223 with R82: PE_SET appends the eight bytes of the set frame to TX, in every state, and changes no register. -/
def Obligations.SetAppendsItsFrame : Prop :=
  ∀ (s : State) (addr ctype number : Byte) (v : Int) (x : Byte), ∃ f w0 w1 t : Byte,
    exec (.peSet addr ctype number v x) s = .next { s with
      tx := s.tx ++ [addr, Config.cmdSet, f, w0, w1, ctype, number, t], resp := some .done } ∧
    exec (.vcEnc v x) s = .next { s with resp := some (.words f w0 w1) } ∧
    exec (.fbBuild addr Config.cmdSet s.eng.cfg.useCRC 5 [f, w0, w1, ctype, number]) s =
      .next { s with resp := some (.frame [addr, Config.cmdSet, f, w0, w1, ctype, number, t]) } ∧
    encode (.peSet addr ctype number v x) = ⟨0x60, [.u8 addr, .u8 ctype, .u8 number, .int v, .u8 x]⟩

/-- R221 with R222 and R83: PE_ASYNC_GET from IDLE stores the request and starts its deadline at `now`; it transmits the six
bytes at once, and only then, when polling is disabled. Outside IDLE it answers false and writes nothing but `E.tLast`. -/
def Obligations.AsyncGetArmsOrTransmits : Prop :=
  ∀ (s : State) (addr ctype number mode : Byte) (c : Ctx) (now : Nat),
    (s.eng.tLast ≤ now → s.eng.trk.state = .idle → 0 < s.eng.cfg.pollIntervalMs →
      exec (.peAsyncGet addr ctype number mode c now) s = .next { s with
        eng := { s.eng with
          tLast := now
          trk := { state := .armed, payload := #v[some mode, some ctype, some number], ctx := some c, addr := some addr
                   mode := some s.eng.cfg.useCRC
                   dl := { start := now, duration := s.eng.trk.dl.duration, forced := false } } }
        resp := some (.flag true) }) ∧
    (s.eng.tLast ≤ now → s.eng.trk.state = .idle → s.eng.cfg.pollIntervalMs ≤ 0 →
      exec (.peAsyncGet addr ctype number mode c now) s = .next { s with
        eng := { s.eng with
          tLast := now
          trk := { state := .pending, payload := #v[some mode, some ctype, some number], ctx := some c, addr := some addr
                   mode := some s.eng.cfg.useCRC
                   dl := { start := now, duration := s.eng.trk.dl.duration, forced := false } } }
        tx := s.tx ++ [addr, Config.cmdGet, mode, ctype, number,
          trailer s.eng.cfg.useCRC [addr, Config.cmdGet, mode, ctype, number]]
        resp := some (.flag true) }) ∧
    (s.eng.tLast ≤ now → s.eng.trk.state ≠ .idle →
      exec (.peAsyncGet addr ctype number mode c now) s = .next { s with
        eng := { s.eng with tLast := now }, resp := some (.flag false) }) ∧
    (now < s.eng.tLast → exec (.peAsyncGet addr ctype number mode c now) s = .fault .timeNotMonotonic) ∧
    encode (.peAsyncGet addr ctype number mode c now) =
      ⟨0x61, [.u8 addr, .u8 ctype, .u8 number, .u8 mode, .ctx c, .nat now]⟩

/-! ## Protocol engine: poll -/

/-- R225: in PENDING with the request deadline expired the poll is TimedOut; RX is not read, the assembler is reset, the engine
is IDLE. A negative timeout never gets there. -/
def Obligations.PollTimesOutBeforeReading : Prop :=
  (∀ (s : State) (now : Nat) (c : Ctx), s.eng.tLast ≤ now → s.eng.trk.state = .pending → s.eng.trk.ctx = some c →
    0 ≤ s.eng.trk.dl.duration →
    (s.eng.trk.dl.forced = true ∨ s.eng.trk.dl.duration ≤ (now : Int) - (s.eng.trk.dl.start : Int)) →
    exec (.pePoll now) s = .next { s with
      eng := { s.eng with
        tLast := now
        asm := { buf := s.eng.asm.buf, len := 0, ready := false, okCRC := false, okSum := false }
        trk := { s.eng.trk with state := .idle } }
      resp := some (.poll true (some .timedOut) (some c)) }) ∧
  (∀ (s t : State) (now : Nat) (c : Option Ctx), s.eng.trk.dl.duration < 0 → exec (.pePoll now) s = .next t →
    t.resp ≠ some (.poll true (some .timedOut) c))

/-- R226: in PENDING and not expired, when no byte of RX makes the assembler ready, all of RX is fed to it, the partial frame
stays, and the poll is not ready. -/
def Obligations.PollDrainsAllOfRxWhenNotReady : Prop :=
  ∀ (s : State) (now : Nat), s.eng.tLast ≤ now → s.eng.trk.state = .pending → s.eng.trk.dl.expired now = false →
    (∀ p, p <+: s.rx → (feedAll p s.eng.asm).ready = false) →
    exec (.pePoll now) s = .next { s with
      eng := { s.eng with tLast := now, asm := feedAll s.rx s.eng.asm }
      rx := [], resp := some (.poll false none none) }

/-- R227: the correlation predicate, clause by clause. -/
def Obligations.CorrelationPredicate : Prop :=
  ∀ (r : WireRequest) (f : Vector Byte 9) (okC okS : Bool), correlates r f okC okS = true ↔
    f[0] = r.addr ∧ f[1] = Config.cmdReply ∧ (if r.mode = true then okC = true else okS = true) ∧
    f[2] &&& 0xFE = r.flags &&& 0xFE ∧ f[6] = r.ctype ∧ f[7] = r.number

/-- R226 with R228: in PENDING and not expired, the byte that makes the assembler ready is the last one read (`read`, with
`left` behind it); when the frame correlates the poll is Value of its decoded words, `left` stays in RX, the engine is IDLE. -/
def Obligations.PollDeliversTheMatchingReply : Prop :=
  ∀ (s : State) (now : Nat) (c : Ctx) (r : WireRequest) (read left : List Byte) (f : Vector Byte 9),
    s.eng.tLast ≤ now → s.eng.trk.state = .pending → s.eng.trk.dl.expired now = false →
    s.eng.trk.ctx = some c → s.eng.trk.wire? = some r →
    s.rx = read ++ left → (∀ p, p <+: read → p ≠ read → (feedAll p s.eng.asm).ready = false) →
    (feedAll read s.eng.asm).ready = true → (∀ i : Fin 9, (feedAll read s.eng.asm).buf[i] = some f[i]) →
    correlates r f (feedAll read s.eng.asm).okCRC (feedAll read s.eng.asm).okSum = true →
    exec (.pePoll now) s = .next { s with
      eng := { s.eng with
        tLast := now
        asm := { buf := (feedAll read s.eng.asm).buf, len := 0, ready := false, okCRC := false, okSum := false }
        trk := { s.eng.trk with state := .idle } }
      rx := left
      resp := some (.poll true (some (.value (decodeValue f[2] f[4] f[5]))) (some c)) }

/-- R229: as before, but the frame does not correlate: the poll is Error and RX is flushed. -/
def Obligations.PollFlushesOnMismatch : Prop :=
  ∀ (s : State) (now : Nat) (c : Ctx) (r : WireRequest) (read left : List Byte) (f : Vector Byte 9),
    s.eng.tLast ≤ now → s.eng.trk.state = .pending → s.eng.trk.dl.expired now = false →
    s.eng.trk.ctx = some c → s.eng.trk.wire? = some r →
    s.rx = read ++ left → (∀ p, p <+: read → p ≠ read → (feedAll p s.eng.asm).ready = false) →
    (feedAll read s.eng.asm).ready = true → (∀ i : Fin 9, (feedAll read s.eng.asm).buf[i] = some f[i]) →
    correlates r f (feedAll read s.eng.asm).okCRC (feedAll read s.eng.asm).okSum = false →
    exec (.pePoll now) s = .next { s with
      eng := { s.eng with
        tLast := now
        asm := { buf := (feedAll read s.eng.asm).buf, len := 0, ready := false, okCRC := false, okSum := false }
        trk := { s.eng.trk with state := .idle } }
      rx := []
      resp := some (.poll true (some .error) (some c)) }

/-- R230 with R222 and R83: in ARMED with the poll deadline expired the request goes out, the state is PENDING, the poll
deadline restarts at `now` and the request deadline does not. -/
def Obligations.PollSendsTheArmedRequest : Prop :=
  ∀ (s : State) (now : Nat) (r : WireRequest), s.eng.tLast ≤ now → s.eng.trk.state = .armed → s.eng.trk.wire? = some r →
    s.eng.pollDl.expired now = true →
    exec (.pePoll now) s = .next { s with
      eng := { s.eng with
        tLast := now
        trk := { s.eng.trk with state := .pending }
        pollDl := { start := now, duration := s.eng.pollDl.duration, forced := false } }
      tx := s.tx ++ [r.addr, Config.cmdGet, r.flags, r.ctype, r.number,
        trailer r.mode [r.addr, Config.cmdGet, r.flags, r.ctype, r.number]]
      resp := some (.poll false none none) }

/-- R231: in IDLE, and in ARMED with the poll deadline not expired, a poll changes nothing but `E.tLast`; outside PENDING no
poll reads RX. -/
def Obligations.PollWithNothingToDo : Prop :=
  (∀ (s : State) (now : Nat), s.eng.tLast ≤ now →
    s.eng.trk.state = .idle ∨ (s.eng.trk.state = .armed ∧ s.eng.pollDl.expired now = false) →
    exec (.pePoll now) s = .next { s with
      eng := { s.eng with tLast := now }, resp := some (.poll false none none) }) ∧
  (∀ (s t : State) (now : Nat), s.eng.trk.state ≠ .pending → exec (.pePoll now) s = .next t → t.rx = s.rx)

/-! ## Whole-machine rules -/

/-- R262, over all operations, from every state with the invariant: an operation faults exactly where the table says, with the
fault the table says, it is never refused, and where the table gives no fault it completes; a command is Fault(UNDEFINED_OP)
exactly when its code is unassigned. -/
def Obligations.FaultsExactlyAsTheTable : Prop :=
  (∀ (i : Instr) (s : State), Inv s →
    (∀ f, exec i s = .fault f ↔ i.fault? s = some f) ∧ (∀ q, exec i s ≠ .refused q) ∧
    (i.fault? s = none → ∃ t, exec i s = .next t)) ∧
  (∀ (s : State) (c : Command) (rest : List Input), Inv s → s.inputs = .command c :: rest →
    (step s = .fault .undefinedOp ↔ Op.ofCode c.op = none))

/-- R14: the unit operations act on the standalone units and touch neither the engine nor the line; the engine's operations
touch no standalone unit. -/
def Obligations.UnitsAndEngineAreSeparate : Prop :=
  ∀ (i : Instr) (s t : State), exec i s = .next t →
    (i.isEngine = false → t.eng = s.eng ∧ t.tx = s.tx ∧ t.rx = s.rx) ∧
    (i.isEngine = true → t.crc = s.crc ∧ t.asm = s.asm ∧ t.dl = s.dl ∧ t.dlLast = s.dlLast ∧ t.trk = s.trk ∧
      t.trkLast = s.trkLast) ∧
    t.inputs = s.inputs

/-- An engine operation's result, its bytes on TX and RX and the engine after it depend on the engine and the line alone: two
states that agree on those give the same, whatever their standalone units hold (R14, R47). -/
def Obligations.EngineIgnoresTheStandaloneUnits : Prop :=
  ∀ (i : Instr) (s s' t : State), i.isEngine = true → s'.eng = s.eng → s'.tx = s.tx → s'.rx = s.rx →
    exec i s = .next t → ∃ t', exec i s' = .next t' ∧ t'.eng = t.eng ∧ t'.tx = t.tx ∧ t'.rx = t.rx ∧ t'.resp = t.resp

/-- R60, R61, R63, R71 and R75 over all operations: TX only grows at its end and only by an engine operation; RX only loses
bytes at its head and only by a PE_POLL in PENDING. -/
def Obligations.StreamsAreUsedOnlyAsOwned : Prop :=
  ∀ (i : Instr) (s t : State), exec i s = .next t →
    s.tx <+: t.tx ∧ t.rx <:+ s.rx ∧
    (t.tx ≠ s.tx → i.isEngine = true) ∧
    (t.rx ≠ s.rx → (∃ now, i = .pePoll now) ∧ s.eng.trk.state = .pending)

/-- R237: after an accepted PE_ASYNC_GET, every PE_ASYNC_GET answers false, transmits nothing and leaves the stored request as it
was, until an outcome is delivered: for every run of steps in between (`Quiet`), with bytes that arrive or are discarded, any
operations, and GETs and their passes. The request may also be one of GET, which contains a PE_ASYNC_GET. GET and the discard as
inputs are the model's form (logs 13 and 28). -/
def Obligations.OneOutstandingRequest : Prop :=
  ∀ (c : Ctx) (n k : Nat) (s t u : State), Accepts c n s t → Quiet k t → core.run k t = .next u →
    ∀ (addr ctype number mode : Byte) (c' : Ctx) (m : Nat) (v : State),
      exec (.peAsyncGet addr ctype number mode c' m) u = .next v →
        v.resp = some (.flag false) ∧ v.tx = u.tx ∧ v.eng.trk = u.eng.trk

/-- R240, the timeout law: a PE_ASYNC_GET accepted at `t0` with a timeout of D ≥ 0, then any run of steps that delivers no
outcome (`Quiet`): bytes may arrive or be discarded, and operations, GETs and their passes may run. A poll before t0 + D is not
TimedOut; in PENDING a poll at or after t0 + D is TimedOut with the request's context; if the request is still ARMED, no poll
delivers it, and after the poll that transmits it and another such run, a poll at or after t0 + D does. GET and the discard as
inputs are the model's form (logs 13 and 28). -/
def Obligations.TimeoutLaw : Prop :=
  ∀ (c : Ctx) (t0 k : Nat) (s t u : State), Inv s → 0 ≤ s.eng.cfg.timeoutMs → Accepts c t0 s t →
    Quiet k t → core.run k t = .next u →
    ∀ (now : Nat) (v : State), exec (.pePoll now) u = .next v →
      ((now : Int) < t0 + s.eng.cfg.timeoutMs → ∀ c', v.resp ≠ some (.poll true (some .timedOut) c')) ∧
      (u.eng.trk.state = .pending → t0 + s.eng.cfg.timeoutMs ≤ (now : Int) →
        v.resp = some (.poll true (some .timedOut) (some c))) ∧
      (u.eng.trk.state = .armed → v.resp = some (.poll false none none) ∧
        (v.eng.trk.state = .pending → ∀ (j now' : Nat) (w x : State), Quiet j v → core.run j v = .next w →
          exec (.pePoll now') w = .next x → t0 + s.eng.cfg.timeoutMs ≤ (now' : Int) →
          x.resp = some (.poll true (some .timedOut) (some c))))

/-- R260's range and the framing of R87: from every state with the invariant, a poll that delivers Value delivers one in
[-16383, 16383], and only for a request whose address has bit 7 set and whose mode, type and number bytes, and CMD_REPLY, have
it clear (R306, for the outcome Value). -/
def Obligations.ValueOutcomesAreInRangeAndFramed : Prop :=
  ∀ (s t : State) (now : Nat) (v : I16) (c : Option Ctx), Inv s → exec (.pePoll now) s = .next t →
    t.resp = some (.poll true (some (.value v)) c) →
    -16383 ≤ v.toInt ∧ v.toInt ≤ 16383 ∧ Config.cmdReply.getLsbD 7 = false ∧
    ∃ r, s.eng.trk.wire? = some r ∧ r.addr.getLsbD 7 = true ∧ r.flags.getLsbD 7 = false ∧ r.ctype.getLsbD 7 = false ∧
      r.number.getLsbD 7 = false

/-- R261: the sentinels meet their constraint, the numeric form tells apart any two outcomes the engine can produce, and each of
them from GET's Busy, which is SENT_BUSY. -/
def Obligations.NumericFormIsInjective : Prop :=
  (∀ o o' : PollOutcome,
    (∀ v, o = .value v → -16383 ≤ v.toInt ∧ v.toInt ≤ 16383) → (∀ v, o' = .value v → -16383 ≤ v.toInt ∧ v.toInt ≤ 16383) →
    o.num = o'.num → o = o') ∧
  (∀ o : PollOutcome, (∀ v, o = .value v → -16383 ≤ v.toInt ∧ v.toInt ≤ 16383) → o.num ≠ Config.sentinels.busy) ∧
  (∀ v : I16, PollOutcome.num (.value v) = v.toInt) ∧
  PollOutcome.num .timedOut = Config.sentinels.timedOut ∧ PollOutcome.num .error = Config.sentinels.error ∧
  (∀ x ∈ [Config.sentinels.timedOut, Config.sentinels.error, Config.sentinels.busy], x < -16383 ∨ 16383 < x) ∧
  (∀ (s t : State) (addr ctype number mode : Byte) (now : Nat), s.eng.trk.state ≠ .idle →
    getCall addr ctype number mode now s = .next t → t.resp = some (.getNum Config.sentinels.busy))

/-! ## The pseudo-operation GET -/

/-- R238 and R239: GET forces the poll deadline first; rejected, it returns SENT_BUSY and has changed nothing else but
`E.tLast`; accepted, it goes on with the request stored, context 0, and transmitted at once when polling is disabled. The two
inputs GET is made of are the model's form (log 13). -/
def Obligations.GetForcesThenAsks : Prop :=
  ∀ (s : State) (addr ctype number mode : Byte) (now : Nat) (rest : List Input),
    s.inputs = .getCall addr ctype number mode now :: rest → s.eng.tLast ≤ now →
    (s.eng.trk.state ≠ .idle → step s = .next { s with
      eng := { s.eng with tLast := now, pollDl := { s.eng.pollDl with forced := true } }
      inputs := rest, resp := some (.getNum Config.sentinels.busy) }) ∧
    (s.eng.trk.state = .idle → ∃ t u, step s = .next t ∧
      exec (.peAsyncGet addr ctype number mode 0 now)
        { s with eng := { s.eng with pollDl := { s.eng.pollDl with forced := true } }, inputs := rest } = .next u ∧
      u.resp = some (.flag true) ∧ t = { u with resp := some .getRunning })

/-- R238's loop: a pass of GET is a PE_POLL; when that is ready GET returns the outcome's number, otherwise it goes on; and a
poll is one or the other. That a pass is an input of its own is the model's form (log 13). -/
def Obligations.GetPollsUntilReady : Prop :=
  ∀ (s t : State) (now : Nat) (rest : List Input), s.inputs = .getPoll now :: rest →
    exec (.pePoll now) { s with inputs := rest } = .next t →
    (∃ o c, t.resp = some (.poll true (some o) (some c)) ∧ step s = .next { t with resp := some (.getNum o.num) }) ∨
    (t.resp = some (.poll false none none) ∧ step s = .next { t with resp := some .getRunning })

/-- R304: a GET rejected because a request is ARMED makes the next PE_POLL transmit that request's own frame (R83), whatever the
poll interval. GET as an input is the model's form (log 13). -/
def Obligations.RejectedGetReleasesTheArmedRequest : Prop :=
  ∀ (s : State) (addr ctype number mode : Byte) (n m : Nat) (rest : List Input), Inv s →
    s.inputs = .getCall addr ctype number mode n :: rest → s.eng.tLast ≤ n → n ≤ m → s.eng.trk.state = .armed →
    ∃ (r : WireRequest) (t u : State), s.eng.trk.wire? = some r ∧
      step s = .next t ∧ t.resp = some (.getNum Config.sentinels.busy) ∧ t.eng.trk = s.eng.trk ∧ t.tx = s.tx ∧
      exec (.pePoll m) t = .next u ∧ u.eng.trk = { s.eng.trk with state := .pending } ∧
      u.tx = s.tx ++ [r.addr, Config.cmdGet, r.flags, r.ctype, r.number,
        trailer r.mode [r.addr, Config.cmdGet, r.flags, r.ctype, r.number]]

/-- R239's last clause: a GET from IDLE with a finite timeout D ends, with the engine IDLE again, once a round after the first
reads the clock at or past its deadline, whatever bytes arrive, if the host's clock readings never decrease. It ends with the
number of an outcome: a value in range or a sentinel other than Busy. -/
def Obligations.GetEndsByItsDeadline : Prop :=
  ∀ (s : State) (addr ctype number mode : Byte) (now : Nat) (first : GetRound) (rounds : List GetRound),
    Inv s → s.eng.trk.state = .idle → s.eng.tLast ≤ now → 0 ≤ s.eng.cfg.timeoutMs →
    List.Pairwise (· ≤ ·) (now :: first.now :: rounds.map GetRound.now) →
    (∃ r ∈ rounds, now + s.eng.cfg.timeoutMs ≤ (r.now : Int)) →
    ∃ (t : State) (x : Int), getRun addr ctype number mode now (first :: rounds) s = .next t ∧
      t.resp = some (.getNum x) ∧ t.eng.trk.state = .idle ∧
      ((-16383 ≤ x ∧ x ≤ 16383) ∨ x = Config.sentinels.timedOut ∨ x = Config.sentinels.error)

/-! ## Headline -/

/-- R295: from every state with the invariant, if the host keeps the discipline of R295 at each of the inputs that wait, the
machine takes them all without a fault or a refusal and ends in a state with the invariant. -/
def Obligations.DisciplinedHostMeetsNoFault : Prop :=
  ∀ s : State, Inv s → Disciplined s.inputs s →
    ∃ t, core.run s.inputs.length s = .next t ∧ t.inputs = [] ∧ Inv t

/-! ## The stored request, step by step -/

/-- The request is kept by every quiet step, from every state that has one: outside IDLE, after a step that neither constructs
the block nor delivers an outcome, the tracker is as it was or the same request has gone from ARMED to PENDING (R206, R221,
R224, R237). Its deadline, context, address, mode and payload are unchanged. -/
def Obligations.QuietStepsKeepTheRequest : Prop :=
  ∀ s t : State, s.eng.trk.state ≠ .idle → step s = .next t → QuietStep s t →
    t.eng.trk = s.eng.trk ∨ (s.eng.trk.state = .armed ∧ t.eng.trk = { s.eng.trk with state := .pending })

/-- What R237 says of a GET: while a request is outstanding after a run as in `OneOutstandingRequest`, a GET is rejected with
SENT_BUSY, transmits nothing and leaves the stored request as it was. GET as an input is the model's form (log 13). -/
def Obligations.GetIsRejectedWhileARequestIsOutstanding : Prop :=
  ∀ (c : Ctx) (n k : Nat) (s t u : State), Accepts c n s t → Quiet k t → core.run k t = .next u →
    ∀ (addr ctype number mode : Byte) (m : Nat) (v : State), getCall addr ctype number mode m u = .next v →
      v.resp = some (.getNum Config.sentinels.busy) ∧ v.tx = u.tx ∧ v.eng.trk = u.eng.trk

/-! ## Where the spec's own sentences meet -/

/-- R169's second sentence, as R164 and R165 bear it out (log 29): bytes make an assembler that is not ready ready only if they
contain, with the bytes of the partial frame already held before them, a complete frame that itself passes R165; those nine bytes
are then in the cells. With no partial frame held (`A.len` = 0) `held` is empty and the bytes themselves contain the frame. -/
def Obligations.OnlyACompleteFrameMakesReady : Prop :=
  ∀ (s t : State) (held bytes : List Byte), AssemblerInv s.asm → s.asm.ready = false → held.length = s.asm.len.val →
    (∀ i : Fin 9, i.val < s.asm.len.val → s.asm.buf[i] = held[i.val]?) →
    execAll (bytes.map .faFeed) s = .next t → t.asm.ready = true →
    ∃ (before after : List Byte) (f : Vector Byte 9), held ++ bytes = before ++ f.toList ++ after ∧
      f[0].getLsbD 7 = true ∧ (∀ i : Fin 9, i.val ≠ 0 → f[i].getLsbD 7 = false) ∧
      (f[8] = (crc7 (f.toList.take 8)).setWidth 8 ∨ f[8] = (Config.checksum (f.toList.take 8)).setWidth 8) ∧
      ∀ i : Fin 9, t.asm.buf[i] = some f[i]

/-- R306, beside R229: a poll that ends a request of the kinds R306 lists delivers TimedOut, and that only with a finite timeout
(R307), or else Error because a frame foreign to the request was assembled (R229): no Value, and no frame that echoes the request
ends it. That a foreign frame does end it is the model's reading where R306 and R229 meet (log 27). -/
def Obligations.UnanswerableRequestsAreNeverAnswered : Prop :=
  ∀ (s t : State) (now : Nat) (r : WireRequest) (o : PollOutcome) (c : Option Ctx), Inv s →
    s.eng.trk.wire? = some r → Unanswerable r → exec (.pePoll now) s = .next t → t.resp = some (.poll true (some o) c) →
    (o = .timedOut ∧ 0 ≤ s.eng.cfg.timeoutMs ∧ s.eng.trk.dl.expired now = true) ∨
    (o = .error ∧ ∃ (read left : List Byte) (f : Vector Byte 9), s.rx = read ++ left ∧
      (feedAll read s.eng.asm).ready = true ∧ (∀ i : Fin 9, (feedAll read s.eng.asm).buf[i] = some f[i]) ∧ Foreign r f)
end

