-- ==== Sys2Proof/Laws/State.lean ====
section
/-! SUPPORT. One lemma per field per update of State, each true by rfl, so that no proof unfolds a record update. -/

namespace Sys2Proof.Machine

variable (s : State)

/-! ### `State.txWrite` -/

@[simp] theorem State.txWrite_crc (x : List Byte) : (s.txWrite x).crc = s.crc := rfl
@[simp] theorem State.txWrite_asm (x : List Byte) : (s.txWrite x).asm = s.asm := rfl
@[simp] theorem State.txWrite_dl (x : List Byte) : (s.txWrite x).dl = s.dl := rfl
@[simp] theorem State.txWrite_dlLast (x : List Byte) : (s.txWrite x).dlLast = s.dlLast := rfl
@[simp] theorem State.txWrite_trk (x : List Byte) : (s.txWrite x).trk = s.trk := rfl
@[simp] theorem State.txWrite_trkLast (x : List Byte) : (s.txWrite x).trkLast = s.trkLast := rfl
@[simp] theorem State.txWrite_tx (x : List Byte) : (s.txWrite x).tx = s.tx ++ x := rfl
@[simp] theorem State.txWrite_rx (x : List Byte) : (s.txWrite x).rx = s.rx := rfl
@[simp] theorem State.txWrite_inputs (x : List Byte) : (s.txWrite x).inputs = s.inputs := rfl
@[simp] theorem State.txWrite_resp (x : List Byte) : (s.txWrite x).resp = s.resp := rfl
@[simp] theorem State.txWrite_eng (x : List Byte) : (s.txWrite x).eng = s.eng := rfl

/-! ### `State.rxAppend` -/

@[simp] theorem State.rxAppend_crc (x : List Byte) : (s.rxAppend x).crc = s.crc := rfl
@[simp] theorem State.rxAppend_asm (x : List Byte) : (s.rxAppend x).asm = s.asm := rfl
@[simp] theorem State.rxAppend_dl (x : List Byte) : (s.rxAppend x).dl = s.dl := rfl
@[simp] theorem State.rxAppend_dlLast (x : List Byte) : (s.rxAppend x).dlLast = s.dlLast := rfl
@[simp] theorem State.rxAppend_trk (x : List Byte) : (s.rxAppend x).trk = s.trk := rfl
@[simp] theorem State.rxAppend_trkLast (x : List Byte) : (s.rxAppend x).trkLast = s.trkLast := rfl
@[simp] theorem State.rxAppend_tx (x : List Byte) : (s.rxAppend x).tx = s.tx := rfl
@[simp] theorem State.rxAppend_rx (x : List Byte) : (s.rxAppend x).rx = s.rx ++ x := rfl
@[simp] theorem State.rxAppend_inputs (x : List Byte) : (s.rxAppend x).inputs = s.inputs := rfl
@[simp] theorem State.rxAppend_resp (x : List Byte) : (s.rxAppend x).resp = s.resp := rfl
@[simp] theorem State.rxAppend_eng (x : List Byte) : (s.rxAppend x).eng = s.eng := rfl

/-! ### `State.rxDiscard` -/

@[simp] theorem State.rxDiscard_crc (n : Nat) : (s.rxDiscard n).crc = s.crc := rfl
@[simp] theorem State.rxDiscard_asm (n : Nat) : (s.rxDiscard n).asm = s.asm := rfl
@[simp] theorem State.rxDiscard_dl (n : Nat) : (s.rxDiscard n).dl = s.dl := rfl
@[simp] theorem State.rxDiscard_dlLast (n : Nat) : (s.rxDiscard n).dlLast = s.dlLast := rfl
@[simp] theorem State.rxDiscard_trk (n : Nat) : (s.rxDiscard n).trk = s.trk := rfl
@[simp] theorem State.rxDiscard_trkLast (n : Nat) : (s.rxDiscard n).trkLast = s.trkLast := rfl
@[simp] theorem State.rxDiscard_tx (n : Nat) : (s.rxDiscard n).tx = s.tx := rfl
@[simp] theorem State.rxDiscard_rx (n : Nat) : (s.rxDiscard n).rx = s.rx.drop n := rfl
@[simp] theorem State.rxDiscard_inputs (n : Nat) : (s.rxDiscard n).inputs = s.inputs := rfl
@[simp] theorem State.rxDiscard_resp (n : Nat) : (s.rxDiscard n).resp = s.resp := rfl
@[simp] theorem State.rxDiscard_eng (n : Nat) : (s.rxDiscard n).eng = s.eng := rfl

/-! ### `State.setRx` -/

@[simp] theorem State.setRx_crc (x : List Byte) : (s.setRx x).crc = s.crc := rfl
@[simp] theorem State.setRx_asm (x : List Byte) : (s.setRx x).asm = s.asm := rfl
@[simp] theorem State.setRx_dl (x : List Byte) : (s.setRx x).dl = s.dl := rfl
@[simp] theorem State.setRx_dlLast (x : List Byte) : (s.setRx x).dlLast = s.dlLast := rfl
@[simp] theorem State.setRx_trk (x : List Byte) : (s.setRx x).trk = s.trk := rfl
@[simp] theorem State.setRx_trkLast (x : List Byte) : (s.setRx x).trkLast = s.trkLast := rfl
@[simp] theorem State.setRx_tx (x : List Byte) : (s.setRx x).tx = s.tx := rfl
@[simp] theorem State.setRx_rx (x : List Byte) : (s.setRx x).rx = x := rfl
@[simp] theorem State.setRx_inputs (x : List Byte) : (s.setRx x).inputs = s.inputs := rfl
@[simp] theorem State.setRx_resp (x : List Byte) : (s.setRx x).resp = s.resp := rfl
@[simp] theorem State.setRx_eng (x : List Byte) : (s.setRx x).eng = s.eng := rfl

/-! ### `State.setEngLast` -/

@[simp] theorem State.setEngLast_crc (x : Nat) : (s.setEngLast x).crc = s.crc := rfl
@[simp] theorem State.setEngLast_asm (x : Nat) : (s.setEngLast x).asm = s.asm := rfl
@[simp] theorem State.setEngLast_dl (x : Nat) : (s.setEngLast x).dl = s.dl := rfl
@[simp] theorem State.setEngLast_dlLast (x : Nat) : (s.setEngLast x).dlLast = s.dlLast := rfl
@[simp] theorem State.setEngLast_trk (x : Nat) : (s.setEngLast x).trk = s.trk := rfl
@[simp] theorem State.setEngLast_trkLast (x : Nat) : (s.setEngLast x).trkLast = s.trkLast := rfl
@[simp] theorem State.setEngLast_tx (x : Nat) : (s.setEngLast x).tx = s.tx := rfl
@[simp] theorem State.setEngLast_rx (x : Nat) : (s.setEngLast x).rx = s.rx := rfl
@[simp] theorem State.setEngLast_inputs (x : Nat) : (s.setEngLast x).inputs = s.inputs := rfl
@[simp] theorem State.setEngLast_resp (x : Nat) : (s.setEngLast x).resp = s.resp := rfl
@[simp] theorem State.setEngLast_eng_cfg (x : Nat) : (s.setEngLast x).eng.cfg = s.eng.cfg := rfl
@[simp] theorem State.setEngLast_eng_asm (x : Nat) : (s.setEngLast x).eng.asm = s.eng.asm := rfl
@[simp] theorem State.setEngLast_eng_trk (x : Nat) : (s.setEngLast x).eng.trk = s.eng.trk := rfl
@[simp] theorem State.setEngLast_eng_pollDl (x : Nat) : (s.setEngLast x).eng.pollDl = s.eng.pollDl := rfl
@[simp] theorem State.setEngLast_eng_tLast (x : Nat) : (s.setEngLast x).eng.tLast = x := rfl

/-! ### `State.setEngAsm` -/

@[simp] theorem State.setEngAsm_crc (x : Assembler) : (s.setEngAsm x).crc = s.crc := rfl
@[simp] theorem State.setEngAsm_asm (x : Assembler) : (s.setEngAsm x).asm = s.asm := rfl
@[simp] theorem State.setEngAsm_dl (x : Assembler) : (s.setEngAsm x).dl = s.dl := rfl
@[simp] theorem State.setEngAsm_dlLast (x : Assembler) : (s.setEngAsm x).dlLast = s.dlLast := rfl
@[simp] theorem State.setEngAsm_trk (x : Assembler) : (s.setEngAsm x).trk = s.trk := rfl
@[simp] theorem State.setEngAsm_trkLast (x : Assembler) : (s.setEngAsm x).trkLast = s.trkLast := rfl
@[simp] theorem State.setEngAsm_tx (x : Assembler) : (s.setEngAsm x).tx = s.tx := rfl
@[simp] theorem State.setEngAsm_rx (x : Assembler) : (s.setEngAsm x).rx = s.rx := rfl
@[simp] theorem State.setEngAsm_inputs (x : Assembler) : (s.setEngAsm x).inputs = s.inputs := rfl
@[simp] theorem State.setEngAsm_resp (x : Assembler) : (s.setEngAsm x).resp = s.resp := rfl
@[simp] theorem State.setEngAsm_eng_cfg (x : Assembler) : (s.setEngAsm x).eng.cfg = s.eng.cfg := rfl
@[simp] theorem State.setEngAsm_eng_asm (x : Assembler) : (s.setEngAsm x).eng.asm = x := rfl
@[simp] theorem State.setEngAsm_eng_trk (x : Assembler) : (s.setEngAsm x).eng.trk = s.eng.trk := rfl
@[simp] theorem State.setEngAsm_eng_pollDl (x : Assembler) : (s.setEngAsm x).eng.pollDl = s.eng.pollDl := rfl
@[simp] theorem State.setEngAsm_eng_tLast (x : Assembler) : (s.setEngAsm x).eng.tLast = s.eng.tLast := rfl

/-! ### `State.setEngTrk` -/

@[simp] theorem State.setEngTrk_crc (x : Tracker) : (s.setEngTrk x).crc = s.crc := rfl
@[simp] theorem State.setEngTrk_asm (x : Tracker) : (s.setEngTrk x).asm = s.asm := rfl
@[simp] theorem State.setEngTrk_dl (x : Tracker) : (s.setEngTrk x).dl = s.dl := rfl
@[simp] theorem State.setEngTrk_dlLast (x : Tracker) : (s.setEngTrk x).dlLast = s.dlLast := rfl
@[simp] theorem State.setEngTrk_trk (x : Tracker) : (s.setEngTrk x).trk = s.trk := rfl
@[simp] theorem State.setEngTrk_trkLast (x : Tracker) : (s.setEngTrk x).trkLast = s.trkLast := rfl
@[simp] theorem State.setEngTrk_tx (x : Tracker) : (s.setEngTrk x).tx = s.tx := rfl
@[simp] theorem State.setEngTrk_rx (x : Tracker) : (s.setEngTrk x).rx = s.rx := rfl
@[simp] theorem State.setEngTrk_inputs (x : Tracker) : (s.setEngTrk x).inputs = s.inputs := rfl
@[simp] theorem State.setEngTrk_resp (x : Tracker) : (s.setEngTrk x).resp = s.resp := rfl
@[simp] theorem State.setEngTrk_eng_cfg (x : Tracker) : (s.setEngTrk x).eng.cfg = s.eng.cfg := rfl
@[simp] theorem State.setEngTrk_eng_asm (x : Tracker) : (s.setEngTrk x).eng.asm = s.eng.asm := rfl
@[simp] theorem State.setEngTrk_eng_trk (x : Tracker) : (s.setEngTrk x).eng.trk = x := rfl
@[simp] theorem State.setEngTrk_eng_pollDl (x : Tracker) : (s.setEngTrk x).eng.pollDl = s.eng.pollDl := rfl
@[simp] theorem State.setEngTrk_eng_tLast (x : Tracker) : (s.setEngTrk x).eng.tLast = s.eng.tLast := rfl

/-! ### `State.setPollDl` -/

@[simp] theorem State.setPollDl_crc (x : Deadline) : (s.setPollDl x).crc = s.crc := rfl
@[simp] theorem State.setPollDl_asm (x : Deadline) : (s.setPollDl x).asm = s.asm := rfl
@[simp] theorem State.setPollDl_dl (x : Deadline) : (s.setPollDl x).dl = s.dl := rfl
@[simp] theorem State.setPollDl_dlLast (x : Deadline) : (s.setPollDl x).dlLast = s.dlLast := rfl
@[simp] theorem State.setPollDl_trk (x : Deadline) : (s.setPollDl x).trk = s.trk := rfl
@[simp] theorem State.setPollDl_trkLast (x : Deadline) : (s.setPollDl x).trkLast = s.trkLast := rfl
@[simp] theorem State.setPollDl_tx (x : Deadline) : (s.setPollDl x).tx = s.tx := rfl
@[simp] theorem State.setPollDl_rx (x : Deadline) : (s.setPollDl x).rx = s.rx := rfl
@[simp] theorem State.setPollDl_inputs (x : Deadline) : (s.setPollDl x).inputs = s.inputs := rfl
@[simp] theorem State.setPollDl_resp (x : Deadline) : (s.setPollDl x).resp = s.resp := rfl
@[simp] theorem State.setPollDl_eng_cfg (x : Deadline) : (s.setPollDl x).eng.cfg = s.eng.cfg := rfl
@[simp] theorem State.setPollDl_eng_asm (x : Deadline) : (s.setPollDl x).eng.asm = s.eng.asm := rfl
@[simp] theorem State.setPollDl_eng_trk (x : Deadline) : (s.setPollDl x).eng.trk = s.eng.trk := rfl
@[simp] theorem State.setPollDl_eng_pollDl (x : Deadline) : (s.setPollDl x).eng.pollDl = x := rfl
@[simp] theorem State.setPollDl_eng_tLast (x : Deadline) : (s.setPollDl x).eng.tLast = s.eng.tLast := rfl

/-! ### `State.construct` -/

variable (r : ResetInputs) (tx rx : List Byte) (ins : List Input)

@[simp] theorem State.construct_crc : (State.construct r tx rx ins).crc = none := rfl
@[simp] theorem State.construct_asm : (State.construct r tx rx ins).asm = Assembler.construct := rfl
@[simp] theorem State.construct_dl : (State.construct r tx rx ins).dl = Deadline.construct r.saDlDuration r.t0 := rfl
@[simp] theorem State.construct_dlLast : (State.construct r tx rx ins).dlLast = r.t0 := rfl
@[simp] theorem State.construct_trk : (State.construct r tx rx ins).trk = Tracker.construct (EngineCfg.latch r).timeoutMs r.t0 := rfl
@[simp] theorem State.construct_trkLast : (State.construct r tx rx ins).trkLast = r.t0 := rfl
@[simp] theorem State.construct_eng : (State.construct r tx rx ins).eng = Engine.construct r := rfl
@[simp] theorem State.construct_tx : (State.construct r tx rx ins).tx = tx := rfl
@[simp] theorem State.construct_rx : (State.construct r tx rx ins).rx = rx := rfl
@[simp] theorem State.construct_inputs : (State.construct r tx rx ins).inputs = ins := rfl
@[simp] theorem State.construct_resp : (State.construct r tx rx ins).resp = none := rfl

/-! ### How an operation ends -/

@[simp] theorem reply_eq_next {r : Resp} {s t : State} : reply r s = .next t ↔ { s with resp := some r } = t := by
  simp [reply]

@[simp] theorem reply_ne_fault {r : Resp} {s : State} {f : Fault} : reply r s ≠ .fault f := by simp [reply]

@[simp] theorem reply_ne_refused {r : Resp} {s : State} {q : Refusal} : reply r s ≠ .refused q := by simp [reply]

end Sys2Proof.Machine
end

