-- ==== Sys2Proof/Laws/Ops.lean ====
section
/-! SUPPORT. One lemma per shared operation that says once what it can do: time, the streams, CRC7, the builder, the
deadline. -/

namespace Sys2Proof.Machine

/-! ## Time -/

theorem takeTime_ok {last now t : Nat} : takeTime last now = .ok t ↔ last ≤ now ∧ t = now := by
  unfold takeTime; split <;> simp <;> omega

theorem takeTime_error {last now : Nat} {f : Fault} :
    takeTime last now = .error f ↔ now < last ∧ f = .timeNotMonotonic := by
  unfold takeTime; split <;> simp [*, eq_comm]

theorem takeTime_of_le {last now : Nat} (h : last ≤ now) : takeTime last now = .ok now := takeTime_ok.2 ⟨h, rfl⟩

theorem takeTime_of_lt {last now : Nat} (h : now < last) : takeTime last now = .error .timeNotMonotonic :=
  takeTime_error.2 ⟨h, rfl⟩

/-! ## The streams -/

/-- R62: the flush leaves RX empty. -/
@[simp] theorem rxFlush_eq_nil (rx : List Byte) : rxFlush rx = [] := by
  induction rx with
  | nil => rfl
  | cons b rest ih => simpa [rxFlush] using ih

/-- R62 as the rule writes it: the flush is RxTryRead until it answers none. -/
theorem rxFlush_eq_loop (rx : List Byte) :
    rxFlush rx = match rxTryRead rx with | none => [] | some (_, rest) => rxFlush rest := by
  cases rx <;> rfl

/-! ## CRC7 -/

/-- The feedback value has bit 7 clear, so one step always leaves it clear (R106). -/
theorem crcShift_high (c : Byte) : (crcShift c).getLsbD 7 = false := by
  unfold crcShift; split <;> simp [Config.crcFeedback]

theorem crcShifts_high (k : Nat) (c : Byte) : (crcShifts (k + 1) c).getLsbD 7 = false := by
  induction k generalizing c with
  | zero => exact crcShift_high c
  | succ k ih => exact ih (crcShift c)

theorem crcRun_cons (r : U7) (b : Byte) (s : List Byte) : crcRun r (b :: s) = crcRun (step8 r b) s := rfl

theorem crcRun_append (r : U7) (s s' : List Byte) : crcRun r (s ++ s') = crcRun (crcRun r s) s' := by
  simp [crcRun]

/-! ## The frame builder -/

/-- A trailer is a body byte (R84, R87). -/
@[simp] theorem trailer_high (u : Bool) (body : List Byte) : (trailer u body).getLsbD 7 = false := by
  simp [trailer]

theorem buildFrame_ok {addr cmd : Byte} {u : Bool} {n : Nat} {p : List Byte} (h : n ≤ 7) :
    buildFrame addr cmd u n p = .ok (addr :: cmd :: p ++ [trailer u (addr :: cmd :: p)]) := by
  have : ¬ n + 3 > Config.maxFrame := by simp [Config.maxFrame]; omega
  simp [buildFrame, frameOf, this]

theorem buildFrame_overflow {addr cmd : Byte} {u : Bool} {n : Nat} {p : List Byte} (h : 7 < n) :
    buildFrame addr cmd u n p = .error .frameOverflow := by
  have : n + 3 > Config.maxFrame := by simp [Config.maxFrame]; omega
  simp [buildFrame, this]

/-! ## The deadline -/

@[simp] theorem Deadline.restart_start (n : Nat) (d : Deadline) : (d.restart n).start = n := rfl
@[simp] theorem Deadline.restart_duration (n : Nat) (d : Deadline) : (d.restart n).duration = d.duration := rfl
@[simp] theorem Deadline.restart_forced (n : Nat) (d : Deadline) : (d.restart n).forced = false := rfl
@[simp] theorem Deadline.expire_start (d : Deadline) : d.expire.start = d.start := rfl
@[simp] theorem Deadline.expire_duration (d : Deadline) : d.expire.duration = d.duration := rfl
@[simp] theorem Deadline.expire_forced (d : Deadline) : d.expire.forced = true := rfl

/-- When a deadline has expired (R180, R183). -/
theorem Deadline.expired_iff (n : Nat) (d : Deadline) :
    d.expired n = true ↔ 0 ≤ d.duration ∧ (d.forced = true ∨ d.duration ≤ (n : Int) - (d.start : Int)) := by
  unfold Deadline.expired
  split
  · simp; omega
  · split <;> simp_all

/-- R185: a deadline that has expired has expired at every later time. -/
theorem Deadline.expired_mono {n m : Nat} {d : Deadline} (hnm : n ≤ m) (h : d.expired n = true) :
    d.expired m = true := by
  rw [Deadline.expired_iff] at *
  obtain ⟨h0, h1 | h1⟩ := h
  · exact ⟨h0, .inl h1⟩
  · exact ⟨h0, .inr (by omega)⟩

end Sys2Proof.Machine
end

