-- ==== Sys2Proof/Laws/Arith.lean ====
section
/-! SUPPORT. The arithmetic of CRC7 and of the value codec in the terms proofs use: linearity over exclusive-or, and digits as
natural numbers. -/

namespace Sys2Proof.Machine

/-! ## CRC7 is linear (R100) -/

theorem crcShift_xor (a b : Byte) : crcShift (a ^^^ b) = crcShift a ^^^ crcShift b := by
  unfold crcShift
  rw [BitVec.getLsbD_xor, BitVec.ushiftRight_xor_distrib]
  cases a.getLsbD 0 <;> cases b.getLsbD 0 <;> simp only [Bool.false_eq_true, bne_self_eq_false, Bool.bne_true,
    Bool.bne_false, Bool.not_false, ↓reduceIte]
  · ac_rfl
  · ac_rfl
  · rw [show ∀ x y z : Byte, (x ^^^ z) ^^^ (y ^^^ z) = (x ^^^ y) ^^^ (z ^^^ z) by intros; ac_rfl]
    simp

theorem crcShifts_xor (k : Nat) (a b : Byte) : crcShifts k (a ^^^ b) = crcShifts k a ^^^ crcShifts k b := by
  induction k generalizing a b with
  | zero => rfl
  | succ k ih => simp [crcShifts, crcShift_xor, ih]

theorem step8_xor (r r' : U7) (b b' : Byte) : step8 (r ^^^ r') (b ^^^ b') = step8 r b ^^^ step8 r' b' := by
  simp only [step8, step8wide]
  rw [← BitVec.setWidth_xor, ← crcShifts_xor]
  congr 2
  simp only [BitVec.setWidth_xor]
  ac_rfl

/-! ## The codec's digits (R120, R121, R122) -/

theorem clamp_eq (v : Int) : clamp v = max (-16383) (min 16383 v) := rfl

theorem magnitude_le (v : Int) : magnitude v ≤ 16383 := by
  unfold magnitude; rw [clamp_eq]; omega

theorem word0_toNat (v : Int) : (word0 v).toNat = magnitude v % 128 := by
  have h : magnitude v &&& 0x7F = magnitude v % 128 := Nat.and_two_pow_sub_one_eq_mod (magnitude v) 7
  simp [word0, h]; omega

theorem word1_toNat (v : Int) : (word1 v).toNat = magnitude v / 128 := by
  have h : ∀ x, x &&& 0x7F = x % 128 := fun x => Nat.and_two_pow_sub_one_eq_mod x 7
  have := magnitude_le v
  simp [word1, h, Nat.shiftRight_eq_div_pow]; omega

/-- The decoder's result as an integer. -/
theorem decodeValue_toInt (f w0 w1 : Byte) : (decodeValue f w0 w1).toInt =
    if f.getLsbD 0 then -((w0.toNat ||| w1.toNat * 128 : Nat) : Int) else ((w0.toNat ||| w1.toNat * 128 : Nat) : Int) := by
  have h0 := w0.isLt
  have h1 := w1.isLt
  have hlt : w0.toNat ||| w1.toNat * 128 < 2 ^ 15 := Nat.or_lt_two_pow (by omega) (by omega)
  have hm : (w0.setWidth 16 ||| (w1.setWidth 16 <<< 7)).toNat = w0.toNat ||| w1.toNat * 128 := by
    simp [Nat.shiftLeft_eq]
    rw [Nat.mod_eq_of_lt (by omega), Nat.mod_eq_of_lt (by omega)]
  have hi : (w0.setWidth 16 ||| (w1.setWidth 16 <<< 7)).toInt = ((w0.toNat ||| w1.toNat * 128 : Nat) : Int) := by
    rw [BitVec.toInt_eq_toNat_of_lt (by omega), hm]
  unfold decodeValue
  split
  · simp only []
    rw [BitVec.toInt_neg_of_ne_intMin, hi]
    intro he
    have := congrArg BitVec.toNat he
    rw [hm] at this
    have h2 : (BitVec.intMin 16).toNat = 2 ^ 15 := by decide
    omega
  · exact hi

/-! ## The sentinels (R261) -/

theorem sentinels_legal : Config.sentinels.legal = true := by
  unfold Config.sentinels; split
  · assumption
  · decide

end Sys2Proof.Machine
end

