-- ==== Sys2Proof/Laws/Assembler.lean ====
section
/-! SUPPORT. The frame assembler: the cases of FA_FEED, the invariant of R29 it keeps, and the drain. -/

namespace Sys2Proof.Machine

/-! ## Reading the cells -/

theorem Assembler.body?_eq_some {a : Assembler} {b0 b1 b2 b3 b4 b5 b6 b7 : Byte} (h0 : a.buf[0] = some b0)
    (h1 : a.buf[1] = some b1) (h2 : a.buf[2] = some b2) (h3 : a.buf[3] = some b3) (h4 : a.buf[4] = some b4)
    (h5 : a.buf[5] = some b5) (h6 : a.buf[6] = some b6) (h7 : a.buf[7] = some b7) :
    a.body? = some [b0, b1, b2, b3, b4, b5, b6, b7] := by
  simp [Assembler.body?, *]

/-- The nine bytes read from full cells. -/
theorem Assembler.frame?_of_cells {a : Assembler} {f : Vector Byte 9} (h : ∀ i : Fin 9, a.buf[i] = some f[i]) :
    a.frame? = some f := by
  have hb := Assembler.body?_eq_some (h 0) (h 1) (h 2) (h 3) (h 4) (h 5) (h 6) (h 7)
  have h8 : a.buf[8] = some f[8] := h 8
  simp only [Assembler.frame?, hb, h8, Option.some.injEq]
  apply Vector.ext
  intro i hi
  match i, hi with
  | 0, _ | 1, _ | 2, _ | 3, _ | 4, _ | 5, _ | 6, _ | 7, _ | 8, _ => rfl

/-! ## The cases of FA_FEED (R161 to R165) -/

theorem Assembler.feed_ready {a : Assembler} {b : Byte} (h : a.ready = true) : a.feed b = a := by
  simp [Assembler.feed, h]

theorem Assembler.feed_start {a : Assembler} {b : Byte} (h : a.ready = false) (hb : b.getLsbD 7 = true) :
    a.feed b = a.start b := by
  simp only [Assembler.feed, h, hb, Bool.false_eq_true, ↓reduceIte]

theorem Assembler.feed_unsynced {a : Assembler} {b : Byte} (h : a.ready = false) (hb : b.getLsbD 7 = false)
    (hl : a.len = 0) : a.feed b = a := by
  simp only [Assembler.feed, h, hb, hl, Bool.false_eq_true, ↓reduceIte]

theorem Assembler.append_len {a : Assembler} {b : Byte} (h : a.len.val ≤ 8) :
    (a.append b).len.val = a.len.val + 1 := by
  have := a.len.isLt
  simp only [Assembler.append, Fin.val_add]
  change (a.len.val + 1) % 10 = _
  omega

theorem Assembler.append_cell {a : Assembler} {b : Byte} (i : Fin 9) :
    (a.append b).buf[i] = if i.val = a.len.val then some b else a.buf[i] := by
  have := Vector.getElem_setIfInBounds (xs := a.buf) (i := a.len.val) (x := some b) (j := i.val) i.isLt
  simp only [Assembler.append, Fin.getElem_fin, this]
  by_cases hi : i.val = a.len.val
  · simp [hi]
  · simp [hi, Ne.symm hi]

theorem Assembler.start_cell {a : Assembler} {b : Byte} (i : Fin 9) :
    (a.start b).buf[i] = if i.val = 0 then some b else a.buf[i] := by
  have := Vector.getElem_set (xs := a.buf) (i := 0) (x := some b) (j := i.val) (by decide) i.isLt
  simp only [Assembler.start, Fin.getElem_fin, this]
  by_cases hi : i.val = 0
  · simp [hi]
  · simp [hi, Ne.symm hi]

theorem Assembler.feed_append {a : Assembler} {b : Byte} (h : a.ready = false) (hb : b.getLsbD 7 = false)
    (hl : 1 ≤ a.len.val) (hl' : a.len.val ≤ 7) : a.feed b = a.append b := by
  have h0 : a.len ≠ 0 := fun e => by simp [e] at hl
  have := Assembler.append_len (b := b) (show a.len.val ≤ 8 by omega)
  simp only [Assembler.feed, h, hb, h0, Bool.false_eq_true, ↓reduceIte, this, Config.replyLen]
  rw [if_neg (by omega)]

theorem Assembler.feed_complete {a : Assembler} {b : Byte} (h : a.ready = false) (hb : b.getLsbD 7 = false)
    (hl : a.len.val = 8) : a.feed b = (a.append b).complete := by
  have h0 : a.len ≠ 0 := fun e => by simp [e] at hl
  have := Assembler.append_len (b := b) (show a.len.val ≤ 8 by omega)
  simp only [Assembler.feed, h, hb, h0, Bool.false_eq_true, ↓reduceIte, this, hl, Config.replyLen]

/-! ## The invariant -/

/-- Reading cells and flags depends on the cells alone. -/
theorem Assembler.matchesCRC_congr {a a' : Assembler} (h : a.buf = a'.buf) : a.matchesCRC = a'.matchesCRC := by
  simp [Assembler.matchesCRC, Assembler.body?, h]

theorem Assembler.matchesSum_congr {a a' : Assembler} (h : a.buf = a'.buf) : a.matchesSum = a'.matchesSum := by
  simp [Assembler.matchesSum, Assembler.body?, h]

theorem Assembler.complete_cases (a : Assembler) :
    ((a.matchesCRC = true ∨ a.matchesSum = true) ∧
      a.complete = { a with okCRC := a.matchesCRC, okSum := a.matchesSum, ready := true }) ∨
    (a.matchesCRC = false ∧ a.matchesSum = false ∧ a.complete = { a with len := 0, okCRC := false, okSum := false }) := by
  unfold Assembler.complete
  cases h : a.matchesCRC <;> cases h' : a.matchesSum <;> simp

theorem assemblerInv_construct : AssemblerInv Assembler.construct where
  whole := by simp [Assembler.construct]
  flags := by simp [Assembler.construct]
  partly := by simp [Assembler.construct]
  framing := by simp [Assembler.construct]

theorem assemblerInv_clear {a : Assembler} : AssemblerInv a.clear where
  whole := by simp [Assembler.clear]
  flags := by simp [Assembler.clear]
  partly := by simp [Assembler.clear]
  framing := by simp [Assembler.clear]

/-- FA_FEED keeps R29. -/
theorem assemblerInv_feed {a : Assembler} (h : AssemblerInv a) (b : Byte) : AssemblerInv (a.feed b) := by
  cases hr : a.ready with
  | true => rwa [Assembler.feed_ready hr]
  | false =>
    obtain ⟨hlen, hc, hs⟩ := h.partly hr
    cases hb : b.getLsbD 7 with
    | true =>
      rw [Assembler.feed_start hr hb]
      refine ⟨by simp [Assembler.start, hr], by simp [Assembler.start, hr], by simp [Assembler.start, hc, hs], ?_⟩
      intro i hi
      have hi0 : i.val = 0 := by simpa [Assembler.start] using hi
      exact ⟨b, by rw [Assembler.start_cell, if_pos hi0], by simp [hb, hi0]⟩
    | false =>
      by_cases h0 : a.len.val = 0
      · rwa [Assembler.feed_unsynced hr hb (Fin.ext h0)]
      have hframe : ∀ i : Fin 9, i.val < a.len.val + 1 →
          ∃ c, (a.append b).buf[i] = some c ∧ c.getLsbD 7 = decide (i.val = 0) := by
        intro i hi
        rw [Assembler.append_cell]
        by_cases he : i.val = a.len.val
        · exact ⟨b, by rw [if_pos he], by rw [hb, eq_comm, decide_eq_false_iff_not]; omega⟩
        · rw [if_neg he]; exact h.framing i (by omega)
      by_cases h8 : a.len.val = 8
      · rw [Assembler.feed_complete hr hb h8]
        have hl := Assembler.append_len (b := b) hlen
        rcases (a.append b).complete_cases with ⟨hm, he⟩ | ⟨_, _, he⟩
        · rw [he]
          refine ⟨fun _ => ⟨by simpa [h8] using hl, hm⟩, fun _ => ⟨rfl, rfl⟩, by simp, ?_⟩
          intro i hi
          exact hframe i (by have := i.isLt; omega)
        · rw [he]
          exact ⟨by simp [Assembler.append, hr], by simp [Assembler.append, hr], by simp, by simp⟩
      · rw [Assembler.feed_append hr hb (by omega) (by omega)]
        have hl := Assembler.append_len (b := b) hlen
        refine ⟨by simp [Assembler.append, hr], by simp [Assembler.append, hr], fun _ => ⟨by omega, hc, hs⟩, ?_⟩
        intro i hi
        exact hframe i (by omega)

theorem assemblerInv_feedAll {a : Assembler} (h : AssemblerInv a) (bytes : List Byte) :
    AssemblerInv (feedAll bytes a) := by
  induction bytes generalizing a with
  | nil => exact h
  | cons b rest ih => exact ih (assemblerInv_feed h b)

/-- While ready, the nine cells hold a well-framed frame (R26, R29, R87). -/
theorem assemblerInv_frame {a : Assembler} (h : AssemblerInv a) (hr : a.ready = true) : ∃ f : Vector Byte 9,
    a.frame? = some f ∧ (∀ i : Fin 9, a.buf[i] = some f[i]) ∧ f[0].getLsbD 7 = true ∧
      ∀ i : Fin 9, i.val ≠ 0 → f[i].getLsbD 7 = false := by
  obtain ⟨hl, _⟩ := h.whole hr
  have hcell : ∀ i : Fin 9, ∃ b, a.buf[i] = some b ∧ b.getLsbD 7 = decide (i.val = 0) := fun i => h.framing i (by omega)
  choose g hg using hcell
  have hf : ∀ i : Fin 9, a.buf[i] = some (Vector.ofFn g)[i] := by
    intro i; rw [(hg i).1]; simp
  refine ⟨_, Assembler.frame?_of_cells hf, hf, by simpa using (hg 0).2, ?_⟩
  intro i hi
  simpa [hi] using (hg i).2

/-! ## The drain (R226) -/

@[simp] theorem feedAll_nil (a : Assembler) : feedAll [] a = a := rfl

@[simp] theorem feedAll_cons (b : Byte) (rest : List Byte) (a : Assembler) :
    feedAll (b :: rest) a = feedAll rest (a.feed b) := rfl

theorem feedAll_append (p q : List Byte) (a : Assembler) : feedAll (p ++ q) a = feedAll q (feedAll p a) := by
  simp [feedAll]

theorem drain_ready {a : Assembler} (h : a.ready = true) (rx : List Byte) : drain a rx = (a, rx) := by
  cases rx <;> simp [drain, h]

/-- The loop of R224 step 2, as the rule writes it, over RxTryRead. -/
theorem drain_eq_loop (a : Assembler) (rx : List Byte) :
    drain a rx = if a.ready then (a, rx) else
      match rxTryRead rx with
      | none => (a, rx)
      | some (b, rest) => drain (a.feed b) rest := by
  cases rx <;> simp [drain, rxTryRead]

/-- Where a drain stops is fixed: after `read` when no shorter part of it made the assembler ready, and either `read` did or
nothing is left. -/
theorem drain_of_split {a : Assembler} {read left : List Byte}
    (hp : ∀ p, p <+: read → p ≠ read → (feedAll p a).ready = false)
    (hq : (feedAll read a).ready = true ∨ left = []) : drain a (read ++ left) = (feedAll read a, left) := by
  induction read generalizing a with
  | nil =>
    rcases hq with h | h
    · simpa using drain_ready h left
    · subst h; rfl
  | cons b rest ih =>
    have h0 : a.ready = false := by simpa using hp [] List.nil_prefix (by simp)
    simp only [List.cons_append, drain, h0, Bool.false_eq_true, ↓reduceIte, feedAll_cons]
    refine ih (fun p hpre hne => ?_) hq
    simpa using hp (b :: p) (List.cons_prefix_cons.2 ⟨rfl, hpre⟩) (by simpa using hne)

/-- Every drain stops somewhere. -/
theorem drain_split (a : Assembler) (rx : List Byte) :
    ∃ read left, rx = read ++ left ∧ (∀ p, p <+: read → p ≠ read → (feedAll p a).ready = false) ∧
      ((feedAll read a).ready = true ∨ left = []) ∧ drain a rx = (feedAll read a, left) := by
  induction rx generalizing a with
  | nil => exact ⟨[], [], rfl, by simp, .inr rfl, rfl⟩
  | cons b rest ih =>
    cases hr : a.ready with
    | true => exact ⟨[], b :: rest, rfl, by simp, .inl hr, by simpa using drain_ready hr _⟩
    | false =>
      obtain ⟨read, left, he, hp, hq, hd⟩ := ih (a.feed b)
      refine ⟨b :: read, left, by simp [he], ?_, hq, by simpa [drain, hr] using hd⟩
      intro p hpre hne
      cases p with
      | nil => exact hr
      | cons c p =>
        obtain ⟨rfl, hpre'⟩ := List.cons_prefix_cons.1 hpre
        exact hp p hpre' (by simpa using hne)

theorem assemblerInv_drain {a : Assembler} (h : AssemblerInv a) (rx : List Byte) : AssemblerInv (drain a rx).1 := by
  obtain ⟨p, q, _, _, _, hd⟩ := drain_split a rx
  rw [hd]; exact assemblerInv_feedAll h p

end Sys2Proof.Machine
end

