-- ==== Sys2Proof/Laws/Decode.lean ====
section
/-! SUPPORT. The op-select codes and the decoder. -/

namespace Sys2Proof

theorem Op.ofCode_code (o : Op) : Op.ofCode o.code = some o := by cases o <;> rfl

theorem Op.code_of_ofCode {b : Byte} {o : Op} (h : Op.ofCode b = some o) : o.code = b := by
  simpa using List.find?_some h

/-- What decoding a command takes: an assigned code and operands of its types. -/
theorem decode_ok {c : Command} {i : Instr} :
    decode c = .ok i ↔ ∃ o, Op.ofCode c.op = some o ∧ decodeOperands o c.operands = some i := by
  unfold decode
  split
  · simp [*]
  · split <;> simp [*]

/-- The only word length of the table: the eight bits of the op-select code. -/
theorem commandOfWord_code (o : Op) : (commandOfWord 8 o.code.toNat).op = o.code := by cases o <;> rfl

/-- No two operations share a code: decoding is unambiguous. -/
theorem Op.all_codes_distinct : Op.all.Pairwise fun o p => o.code ≠ p.code := by decide

end Sys2Proof
end

