-- ==== Sys2Proof/Laws/Engine.lean ====
section
/-! SUPPORT. The tracker's and the engine's shared operations, each with one lemma that says what it can do. -/

namespace Sys2Proof.Machine

/-! ## The tracker -/

/-- The request an accepted arm stores (R201). -/
def Tracker.armed (payload : Vector Byte 3) (ctx : Ctx) (addr : Byte) (mode : Bool) (now : Nat) (t : Tracker) : Tracker :=
  { state := .armed, payload := #v[some payload[0], some payload[1], some payload[2]]
    ctx := some ctx, addr := some addr, mode := some mode
    dl := t.dl.restart now }

theorem Tracker.arm_idle {t : Tracker} (h : t.state = .idle) (p : Vector Byte 3) (c : Ctx) (a : Byte) (m : Bool) (n : Nat) :
    t.arm p c a m n = (true, t.armed p c a m n) := by
  simp [Tracker.arm, Tracker.armed, h]

theorem Tracker.arm_busy {t : Tracker} (h : t.state ≠ .idle) (p : Vector Byte 3) (c : Ctx) (a : Byte) (m : Bool) (n : Nat) :
    t.arm p c a m n = (false, t) := by
  simp [Tracker.arm, h]

theorem Tracker.markSent_armed {t : Tracker} (h : t.state = .armed) : t.markSent = .ok { t with state := .pending } := by
  simp [Tracker.markSent, h]

theorem Tracker.markSent_ok {t t' : Tracker} :
    t.markSent = .ok t' ↔ t.state = .armed ∧ { t with state := .pending } = t' := by
  unfold Tracker.markSent; split <;> simp [*]

@[simp] theorem Tracker.clear_wire? (t : Tracker) : t.clear.wire? = t.wire? := rfl

/-- An accepted arm's fields read back as the request it stored. -/
theorem Tracker.armed_wire? (t : Tracker) (p : Vector Byte 3) (c : Ctx) (a : Byte) (m : Bool) (n : Nat) :
    (t.armed p c a m n).wire? = some { addr := a, mode := m, flags := p[0], ctype := p[1], number := p[2] } := by
  simp [Tracker.wire?, Tracker.armed]

/-! ## The engine's internal steps -/

/-- The six bytes of the get-request frame of a stored request (R83). -/
def requestFrame (r : WireRequest) : List Byte :=
  [r.addr, Config.cmdGet, r.flags, r.ctype, r.number,
    trailer r.mode [r.addr, Config.cmdGet, r.flags, r.ctype, r.number]]

/-- R222: what a transmission does when it completes. -/
theorem transmitRequest_ok {s t : State} : transmitRequest s = .ok t ↔
    ∃ r, s.eng.trk.wire? = some r ∧ s.eng.trk.state = .armed ∧
      (s.txWrite (requestFrame r)).setEngTrk { s.eng.trk with state := .pending } = t := by
  unfold transmitRequest
  cases hw : s.eng.trk.wire? with
  | none => simp
  | some r =>
    simp only [buildFrame_ok (show 3 ≤ 7 by decide)]
    cases hm : s.eng.trk.markSent with
    | error f =>
      have : s.eng.trk.state ≠ .armed := fun h => by simp [Tracker.markSent_armed h] at hm
      simp [this]
    | ok t' =>
      obtain ⟨ha, rfl⟩ := Tracker.markSent_ok.1 hm
      simp [ha, requestFrame]

/-- R233: what Terminal does when it completes. -/
theorem terminal_ok {o : PollOutcome} {s t : State} {res : Option (PollOutcome × Ctx)} :
    terminal o s = .ok (res, t) ↔ ∃ c, s.eng.trk.ctx = some c ∧ res = some (o, c) ∧
      (s.setEngAsm s.eng.asm.clear).setEngTrk s.eng.trk.clear = t := by
  unfold terminal readCell
  cases s.eng.trk.ctx <;> simp [eq_comm]

/-- R221: what PE_ASYNC_GET does when it completes. -/
theorem asyncGet_ok {a ty nu mo : Byte} {c : Ctx} {n : Nat} {s t : State} {acc : Bool} :
    asyncGet a ty nu mo c n s = .ok (acc, t) ↔ s.eng.tLast ≤ n ∧
      ((s.eng.trk.state ≠ .idle ∧ acc = false ∧ s.setEngLast n = t) ∨
        (s.eng.trk.state = .idle ∧ acc = true ∧ s.eng.pollDisabled = false ∧
          (s.setEngLast n).setEngTrk (s.eng.trk.armed #v[mo, ty, nu] c a s.eng.cfg.useCRC n) = t) ∨
        (s.eng.trk.state = .idle ∧ acc = true ∧ s.eng.pollDisabled = true ∧
          ((s.setEngLast n).txWrite (requestFrame ⟨a, s.eng.cfg.useCRC, mo, ty, nu⟩)).setEngTrk
            { s.eng.trk.armed #v[mo, ty, nu] c a s.eng.cfg.useCRC n with state := .pending } = t)) := by
  unfold asyncGet
  by_cases hn : s.eng.tLast ≤ n
  swap
  · simp [takeTime_of_lt (Nat.lt_of_not_le hn), hn]
  simp only [takeTime_of_le hn, hn, true_and]
  by_cases hi : s.eng.trk.state = .idle
  · have hp : ∀ t' : Tracker, ((s.setEngLast n).setEngTrk t').eng.pollDisabled = s.eng.pollDisabled := fun _ => rfl
    simp only [Tracker.arm_idle hi, hp, hi]
    cases hd : s.eng.pollDisabled with
    | false => simp [eq_comm (a := true)]
    | true =>
      have hsent : transmitRequest ((s.setEngLast n).setEngTrk (s.eng.trk.armed #v[mo, ty, nu] c a s.eng.cfg.useCRC n)) =
          .ok (((s.setEngLast n).txWrite (requestFrame ⟨a, s.eng.cfg.useCRC, mo, ty, nu⟩)).setEngTrk
            { s.eng.trk.armed #v[mo, ty, nu] c a s.eng.cfg.useCRC n with state := .pending }) :=
        transmitRequest_ok.2 ⟨_, Tracker.armed_wire? .., rfl, rfl⟩
      simp [hsent, eq_comm (a := true)]
  · have he : (s.setEngLast n).setEngTrk s.eng.trk = s.setEngLast n := rfl
    simp [Tracker.arm_busy hi, hi, he]

/-- R224, steps 1 to 3: what a poll of a PENDING request does when it completes. -/
theorem pollPending_ok {n : Nat} {s t : State} {res : Option (PollOutcome × Ctx)}
    (h : pollPending n s = .ok (res, t)) :
    (s.eng.trk.dl.expired n = true ∧ terminal .timedOut s = .ok (res, t)) ∨
    (s.eng.trk.dl.expired n = false ∧
      (((drain s.eng.asm s.rx).1.ready = false ∧ res = none ∧
          (s.setEngAsm (drain s.eng.asm s.rx).1).setRx (drain s.eng.asm s.rx).2 = t) ∨
        ((drain s.eng.asm s.rx).1.ready = true ∧ ∃ f r, (drain s.eng.asm s.rx).1.frame? = some f ∧
          s.eng.trk.wire? = some r ∧
          ((correlates r f (drain s.eng.asm s.rx).1.okCRC (drain s.eng.asm s.rx).1.okSum = true ∧
              terminal (.value (decodeValue f[2] f[4] f[5]))
                ((s.setEngAsm (drain s.eng.asm s.rx).1).setRx (drain s.eng.asm s.rx).2) = .ok (res, t)) ∨
            (correlates r f (drain s.eng.asm s.rx).1.okCRC (drain s.eng.asm s.rx).1.okSum = false ∧
              terminal .error ((s.setEngAsm (drain s.eng.asm s.rx).1).setRx []) = .ok (res, t)))))) := by
  unfold pollPending at h
  cases he : s.eng.trk.dl.expired n with
  | true => simp only [he, ↓reduceIte] at h; exact .inl ⟨rfl, h⟩
  | false =>
    refine .inr ⟨rfl, ?_⟩
    simp only [he, Bool.false_eq_true, ↓reduceIte, State.setRx_eng, State.setEngAsm_eng_asm] at h
    cases hr : (drain s.eng.asm s.rx).1.ready with
    | false => simp only [hr, Bool.false_eq_true, ↓reduceIte, Except.ok.injEq, Prod.mk.injEq] at h
               exact .inl ⟨rfl, h.1.symm, h.2⟩
    | true =>
      simp only [hr, ↓reduceIte, correlateReply, State.setRx_eng, State.setEngAsm_eng_asm,
        State.setEngAsm_eng_trk] at h
      split at h
      · rename_i f r hf hw
        refine .inr ⟨rfl, f, r, hf, hw, ?_⟩
        cases hc : correlates r f (drain s.eng.asm s.rx).1.okCRC (drain s.eng.asm s.rx).1.okSum with
        | true => simp only [hc, ↓reduceIte] at h; exact .inl ⟨rfl, h⟩
        | false =>
          simp only [hc, Bool.false_eq_true, ↓reduceIte, rxFlush_eq_nil] at h
          exact .inr ⟨rfl, h⟩
      · cases h

/-- R224, steps 4 and 5: what a poll of an ARMED request does when it completes. -/
theorem pollArmed_ok {n : Nat} {s t : State} {res : Option (PollOutcome × Ctx)} (h : pollArmed n s = .ok (res, t)) :
    res = none ∧ ((s.eng.pollDl.expired n = false ∧ t = s) ∨
      (s.eng.pollDl.expired n = true ∧ ∃ u, transmitRequest s = .ok u ∧ u.setPollDl (s.eng.pollDl.restart n) = t)) := by
  unfold pollArmed at h
  cases he : s.eng.pollDl.expired n with
  | false => simp only [he, Bool.false_eq_true, ↓reduceIte, Except.ok.injEq, Prod.mk.injEq] at h; simp [h]
  | true =>
    simp only [he, ↓reduceIte] at h
    split at h
    · cases h
    · rename_i u hu
      simp only [Except.ok.injEq, Prod.mk.injEq] at h
      refine ⟨h.1.symm, .inr ⟨rfl, u, hu, ?_⟩⟩
      obtain ⟨r, _, _, rfl⟩ := transmitRequest_ok.1 hu
      exact h.2

/-- R224: what a poll does when it completes, by the state of the request. -/
theorem pollStep_ok {n : Nat} {s t : State} {res : Option (PollOutcome × Ctx)} (h : pollStep n s = .ok (res, t)) :
    s.eng.tLast ≤ n ∧
      ((s.eng.trk.state = .pending ∧ pollPending n (s.setEngLast n) = .ok (res, t)) ∨
        (s.eng.trk.state = .armed ∧ pollArmed n (s.setEngLast n) = .ok (res, t)) ∨
        (s.eng.trk.state = .idle ∧ res = none ∧ s.setEngLast n = t)) := by
  unfold pollStep at h
  by_cases hn : s.eng.tLast ≤ n
  swap
  · simp [takeTime_of_lt (Nat.lt_of_not_le hn)] at h
  refine ⟨hn, ?_⟩
  simp only [takeTime_of_le hn] at h
  cases hs : s.eng.trk.state with
  | pending => simp only [hs] at h; simp [h]
  | armed => simp only [hs] at h; simp [h]
  | idle => simp only [hs, Except.ok.injEq, Prod.mk.injEq] at h; simp [h]

/-! ## The engine's invariant -/

theorem trackerInv_construct (d : Int) (t0 : Nat) : TrackerInv d t0 (Tracker.construct d t0) where
  stored := by simp [Tracker.construct]
  deadline := ⟨rfl, Nat.le_refl _⟩

theorem engineInv_construct (r : ResetInputs) : EngineInv (Engine.construct r) where
  asm := assemblerInv_construct
  notReady := rfl
  empty := fun _ => rfl
  trk := trackerInv_construct ..
  mode := by simp [Engine.construct, Tracker.construct]
  armed := by simp [Engine.construct, Tracker.construct]
  pollDl := ⟨rfl, Nat.le_refl _⟩

theorem trackerInv_later {d : Int} {n m : Nat} {t : Tracker} (h : TrackerInv d n t) (hm : n ≤ m) : TrackerInv d m t :=
  ⟨h.stored, ⟨h.deadline.fixed, Nat.le_trans h.deadline.started hm⟩⟩

theorem trackerInv_armed {d : Int} {n l : Nat} {t : Tracker} (h : TrackerInv d l t) (p : Vector Byte 3) (c : Ctx)
    (a : Byte) (m : Bool) : TrackerInv d n (t.armed p c a m n) :=
  ⟨fun _ => ⟨⟨_, Tracker.armed_wire? ..⟩, ⟨c, rfl⟩⟩, ⟨h.deadline.fixed, Nat.le_refl _⟩⟩

theorem engineInv_later {e : Engine} {n : Nat} (h : EngineInv e) (hn : e.tLast ≤ n) :
    EngineInv { e with tLast := n } :=
  ⟨h.asm, h.notReady, h.empty, trackerInv_later h.trk hn, h.mode, h.armed,
    ⟨h.pollDl.fixed, Nat.le_trans h.pollDl.started hn⟩⟩

/-! ## The engine's operations complete (R262: TIME_NOT_MONOTONIC is their one fault) -/

theorem asyncGet_completes {s : State} {n : Nat} (a ty nu mo : Byte) (c : Ctx) (hn : s.eng.tLast ≤ n) :
    ∃ acc t, asyncGet a ty nu mo c n s = .ok (acc, t) := by
  by_cases hi : s.eng.trk.state = .idle
  · cases hd : s.eng.pollDisabled with
    | false => exact ⟨_, _, asyncGet_ok.2 ⟨hn, .inr (.inl ⟨hi, rfl, hd, rfl⟩)⟩⟩
    | true => exact ⟨_, _, asyncGet_ok.2 ⟨hn, .inr (.inr ⟨hi, rfl, hd, rfl⟩)⟩⟩
  · exact ⟨_, _, asyncGet_ok.2 ⟨hn, .inl ⟨hi, rfl, rfl⟩⟩⟩

theorem pollStep_pending {n : Nat} {s : State} (h : s.eng.tLast ≤ n) (hp : s.eng.trk.state = .pending) :
    pollStep n s = pollPending n (s.setEngLast n) := by
  simp [pollStep, takeTime_of_le h, hp]

theorem pollStep_armed {n : Nat} {s : State} (h : s.eng.tLast ≤ n) (hp : s.eng.trk.state = .armed) :
    pollStep n s = pollArmed n (s.setEngLast n) := by
  simp [pollStep, takeTime_of_le h, hp]

theorem pollStep_idle {n : Nat} {s : State} (h : s.eng.tLast ≤ n) (hp : s.eng.trk.state = .idle) :
    pollStep n s = .ok (none, s.setEngLast n) := by
  simp [pollStep, takeTime_of_le h, hp]

/-- R229 and R228 complete: the ready assembler holds a frame and the tracker a request. -/
theorem correlateReply_completes {s : State} {f : Vector Byte 9} {r : WireRequest} {c : Ctx} (hf : s.eng.asm.frame? = some f)
    (hr : s.eng.trk.wire? = some r) (hc : s.eng.trk.ctx = some c) : ∃ res t, correlateReply s = .ok (res, t) := by
  simp only [correlateReply, hf, hr]
  split
  · exact ⟨_, _, terminal_ok.2 ⟨c, hc, rfl, rfl⟩⟩
  · exact ⟨_, _, terminal_ok.2 ⟨c, hc, rfl, rfl⟩⟩

theorem pollStep_completes {s : State} (hs : EngineInv s.eng) {n : Nat} (hn : s.eng.tLast ≤ n) :
    ∃ res t, pollStep n s = .ok (res, t) := by
  cases hst : s.eng.trk.state with
  | idle => exact ⟨_, _, pollStep_idle hn hst⟩
  | armed =>
    rw [pollStep_armed hn hst, pollArmed]
    split
    · obtain ⟨⟨r, hr⟩, _⟩ := hs.trk.stored (by simp [hst])
      have : transmitRequest (s.setEngLast n) = .ok _ := transmitRequest_ok.2 ⟨r, hr, hst, rfl⟩
      rw [this]; exact ⟨_, _, rfl⟩
    · exact ⟨_, _, rfl⟩
  | pending =>
    obtain ⟨⟨r, hr⟩, c, hc⟩ := hs.trk.stored (by simp [hst])
    rw [pollStep_pending hn hst, pollPending]
    split
    · exact ⟨_, _, terminal_ok.2 ⟨c, hc, rfl, rfl⟩⟩
    · dsimp only
      split
      · rename_i hready
        obtain ⟨f, hf, _⟩ := assemblerInv_frame (assemblerInv_drain hs.asm s.rx) hready
        exact correlateReply_completes hf hr hc
      · exact ⟨_, _, rfl⟩

end Sys2Proof.Machine
end

