-- ==== Sys2Proof/Laws/Exec.lean ====
section
/-! SUPPORT. What `exec` and `step` can do, said once: the engine's operations through their shared step, the unit operations
through the fields they may write, and the input a step takes. -/

namespace Sys2Proof.Machine

theorem exec_peAsyncGet_next {a ty nu mo : Byte} {c : Ctx} {n : Nat} {s t : State} :
    exec (.peAsyncGet a ty nu mo c n) s = .next t ↔
      ∃ acc u, asyncGet a ty nu mo c n s = .ok (acc, u) ∧ { u with resp := some (.flag acc) } = t := by
  simp only [exec, execPeAsyncGet]
  cases asyncGet a ty nu mo c n s with
  | ok p =>
    obtain ⟨x, u⟩ := p
    exact ⟨fun h => ⟨x, u, rfl, reply_eq_next.1 h⟩, fun ⟨_, _, he, h⟩ => by cases he; exact reply_eq_next.2 h⟩
  | error f => simp

theorem exec_pePoll_next {n : Nat} {s t : State} :
    exec (.pePoll n) s = .next t ↔
      ∃ res u, pollStep n s = .ok (res, u) ∧ { u with resp := some (pollResp res) } = t := by
  simp only [exec, execPePoll]
  cases pollStep n s with
  | ok p =>
    obtain ⟨x, u⟩ := p
    exact ⟨fun h => ⟨x, u, rfl, reply_eq_next.1 h⟩, fun ⟨_, _, he, h⟩ => by cases he; exact reply_eq_next.2 h⟩
  | error f => simp

theorem getPoll_next {n : Nat} {s t : State} :
    getPoll n s = .next t ↔ ∃ res u, pollStep n s = .ok (res, u) ∧ { u with resp := some (getResp res) } = t := by
  simp only [getPoll]
  cases pollStep n s with
  | ok p =>
    obtain ⟨x, u⟩ := p
    exact ⟨fun h => ⟨x, u, rfl, reply_eq_next.1 h⟩, fun ⟨_, _, he, h⟩ => by cases he; exact reply_eq_next.2 h⟩
  | error f => simp

theorem getCall_next {a ty nu mo : Byte} {n : Nat} {s t : State} :
    getCall a ty nu mo n s = .next t ↔
      ∃ acc u, asyncGet a ty nu mo 0 n (s.setPollDl s.eng.pollDl.expire) = .ok (acc, u) ∧
        { u with resp := some (if acc then .getRunning else .getNum Config.sentinels.busy) } = t := by
  simp only [getCall]
  cases asyncGet a ty nu mo 0 n (s.setPollDl s.eng.pollDl.expire) with
  | ok p =>
    obtain ⟨x, u⟩ := p
    exact ⟨fun h => ⟨x, u, rfl, reply_eq_next.1 h⟩, fun ⟨_, _, he, h⟩ => by cases he; exact reply_eq_next.2 h⟩
  | error f => simp

/-- PE_SET always completes (R223). -/
theorem exec_peSet_next {a ty nu : Byte} {v : Int} {x : Byte} {s : State} :
    exec (.peSet a ty nu v x) s = .next { s.txWrite (a :: Config.cmdSet :: setPayload ty nu v x ++
      [trailer s.eng.cfg.useCRC (a :: Config.cmdSet :: setPayload ty nu v x)]) with resp := some .done } := by
  simp [exec, execPeSet, buildFrame_ok (show 5 ≤ 7 by decide)]

/-- A unit operation writes its own standalone unit and `resp`, at most (R14). -/
theorem exec_unit_next {i : Instr} {s t : State} (hi : i.isEngine = false) (h : exec i s = .next t) :
    ∃ crc asm dl dlLast trk trkLast r, t = { s with
      crc := crc, asm := asm, dl := dl, dlLast := dlLast, trk := trk, trkLast := trkLast, resp := some r } := by
  cases i <;>
    simp only [Instr.isEngine, Bool.true_eq_false, exec, execCrcBegin, execCrcWrite, execCrcEnd, execCrcValue, execCrcSpan,
      execVcEnc, execVcDec, execFbBuild, execFaFeed, execFaReady, execFaView, execFaReset, execDlReset, execDlExpire,
      execDlExpired, execRtArm, execRtMarkSent, execRtClear, execRtPending, execRtExpired, execRtReset, execRtExpire] at hi h <;>
    (try split at h) <;>
    first
      | exact ⟨_, _, _, _, _, _, _, (reply_eq_next.1 h).symm⟩
      | cases h

/-- What a step with an input does: it takes it (R72). -/
theorem step_cons {s : State} {i : Input} {rest : List Input} (h : s.inputs = i :: rest) :
    step s = takeInput i { s with inputs := rest } := by
  simp [step, h]

theorem step_nil {s : State} (h : s.inputs = []) : step s = .next s := by
  simp [step, h]

/-- What a command on the port does when it completes (R89, R91). -/
theorem runCommand_next {c : Command} {s t : State} :
    runCommand c s = .next t ↔ ∃ i, decode c = .ok i ∧ exec i s = .next t := by
  unfold runCommand
  split <;> simp [*]

/-- Feeding a list of bytes to the standalone assembler changes that assembler and `resp` alone. -/
theorem execAll_faFeed (bytes : List Byte) (s : State) :
    ∃ r, execAll (bytes.map .faFeed) s = .next { s with asm := feedAll bytes s.asm, resp := r } := by
  induction bytes generalizing s with
  | nil => exact ⟨s.resp, rfl⟩
  | cons b rest ih =>
    obtain ⟨r, hr⟩ := ih { s with asm := s.asm.feed b, resp := some .done }
    exact ⟨r, by simp only [List.map_cons, execAll, exec, execFaFeed, reply]; exact hr⟩

/-! ## Runs -/

theorem core_run_zero {s t : State} : core.run 0 s = .next t ↔ s = t :=
  ⟨fun h => Host.Outcome.next.inj h, fun h => congrArg Host.Outcome.next h⟩

/-- A run is its first step and the run after it. -/
theorem core_run_succ {k : Nat} {s t : State} :
    core.run (k + 1) s = .next t ↔ ∃ u, step s = .next u ∧ core.run k u = .next t := by
  simp only [Host.Core.run]
  cases h : step s with
  | next u =>
    rw [show core.step s = .next u from h]
    exact ⟨fun hr => ⟨u, rfl, hr⟩, fun ⟨_, he, hr⟩ => Host.Outcome.next.inj he ▸ hr⟩
  | fault f =>
    rw [show core.step s = .fault f from h]
    exact ⟨fun hr => (nomatch hr), fun ⟨_, he, _⟩ => (nomatch he)⟩
  | refused q =>
    rw [show core.step s = .refused q from h]
    exact ⟨fun hr => (nomatch hr), fun ⟨_, he, _⟩ => (nomatch he)⟩

/-- A quiet run may be looked at step by step. -/
theorem quiet_succ {k : Nat} {s t : State} (h : step s = .next t) (hq : QuietStep s t) (hk : Quiet k t) : Quiet (k + 1) s := by
  intro u hu
  rw [h] at hu
  cases hu
  exact ⟨hq, hk⟩

end Sys2Proof.Machine
end

