-- ==== Sys2Proof/Laws/PerInstr.lean ====
section
/-! SUPPORT. The family OperandRoundTrip, one lemma per constructor: the decoder reads an instruction's operands back. -/

namespace Sys2Proof.Laws.OperandRoundTrip

/-- The operands of a well-formed instruction, read at its own operation, give the instruction. -/
def Statement (i : Instr) : Prop := i.wf = true → decodeOperands i.op i.operands = some i

theorem crcBegin : Statement .crcBegin := fun _ => rfl
theorem crcWrite (b : Byte) : Statement (.crcWrite b) := fun _ => rfl
theorem crcEnd : Statement .crcEnd := fun _ => rfl
theorem crcValue : Statement .crcValue := fun _ => rfl
theorem crcSpan (n : Nat) (bytes : List Byte) : Statement (.crcSpan n bytes) := fun h => if_pos h
theorem vcEnc (value : Int) (xflags : Byte) : Statement (.vcEnc value xflags) := fun _ => rfl
theorem vcDec (flags w0 w1 : Byte) : Statement (.vcDec flags w0 w1) := fun _ => rfl
theorem fbBuild (addr cmd : Byte) (u : Bool) (n : Nat) (p : List Byte) : Statement (.fbBuild addr cmd u n p) :=
  fun h => if_pos h
theorem faFeed (b : Byte) : Statement (.faFeed b) := fun _ => rfl
theorem faReady : Statement .faReady := fun _ => rfl
theorem faView : Statement .faView := fun _ => rfl
theorem faReset : Statement .faReset := fun _ => rfl
theorem dlReset (now : Nat) : Statement (.dlReset now) := fun _ => rfl
theorem dlExpire : Statement .dlExpire := fun _ => rfl
theorem dlExpired (now : Nat) : Statement (.dlExpired now) := fun _ => rfl
theorem rtArm (p : Vector Byte 3) (c : Ctx) (a : Byte) (m : Bool) (now : Nat) : Statement (.rtArm p c a m now) := by
  intro _
  obtain ⟨⟨l⟩, hl⟩ := p
  match l, hl with
  | [_, _, _], _ => rfl
theorem rtMarkSent : Statement .rtMarkSent := fun _ => rfl
theorem rtClear : Statement .rtClear := fun _ => rfl
theorem rtPending : Statement .rtPending := fun _ => rfl
theorem rtExpired (now : Nat) : Statement (.rtExpired now) := fun _ => rfl
theorem rtReset (now : Nat) : Statement (.rtReset now) := fun _ => rfl
theorem rtExpire : Statement .rtExpire := fun _ => rfl
theorem peSet (a t n : Byte) (v : Int) (x : Byte) : Statement (.peSet a t n v x) := fun _ => rfl
theorem peAsyncGet (a t n m : Byte) (c : Ctx) (now : Nat) : Statement (.peAsyncGet a t n m c now) := fun _ => rfl
theorem pePoll (now : Nat) : Statement (.pePoll now) := fun _ => rfl

end Sys2Proof.Laws.OperandRoundTrip
end

