-- ==== Sys2Proof/Tests/Slice0.lean ====
section
/-! SUPPORT. The model's own tests. Expected results are those of spec/95_test_vectors.md, whose vector each test names, or are
worked by hand from the rule it names. `witness_…` shows that the hypotheses of the obligation of that name are met together. -/

namespace Sys2Proof.Machine

/-! ## Helpers -/

/-- The next state of an outcome, if it is one. -/
def nextOf (o : Host.Outcome State Fault Refusal) : Option State :=
  match o with
  | .next t => some t
  | .fault _ | .refused _ => none

/-- What the operation returned. -/
def respOf (o : Host.Outcome State Fault Refusal) : Option Resp := (nextOf o).bind State.resp

/-- The fault of an outcome, if it is one. -/
def faultOf (o : Host.Outcome State Fault Refusal) : Option Fault :=
  match o with
  | .fault f => some f
  | .next _ | .refused _ => none

/-- The block constructed at time 0 with a configuration {poll, timeout, useCRC}. -/
def configured (poll timeout : Int) (u : Bool) : State :=
  State.construct { pollIntervalMs := some poll, timeoutMs := some timeout, useCRC := some u, t0 := 0, saDlDuration := 100 }
    [] [] []

/-- After reset, with a value in `C.crc`. -/
def withCrc (r : U7) : State := { State.reset with crc := some r }

/-- The first eight bytes of the frame R1 of the test vectors. -/
def bodyR1 : Vector Byte 8 := #v[0x80, 0x49, 0x00, 0x00, 0x7F, 0x0F, 0x4D, 0x01]

/-- An assembler that holds eight body bytes, the ninth to come. -/
def eightBytes (f : Vector Byte 8) : Assembler :=
  { buf := #v[some f[0], some f[1], some f[2], some f[3], some f[4], some f[5], some f[6], some f[7], none]
    len := 8, ready := false, okCRC := false, okSum := false }

/-- After reset, with R1's first eight bytes in the standalone assembler. -/
def almostR1 : State := { State.reset with asm := eightBytes bodyR1 }

/-- After reset, with R1 whole in the standalone assembler. -/
def holdsR1 : State :=
  { State.reset with asm := { (eightBytes bodyR1).append 0x60 with ready := true, okCRC := true } }

/-- After reset, with a deadline in the standalone timer. -/
def withDl (d : Deadline) (last : Nat) : State := { State.reset with dl := d, dlLast := last }

/-- The tracker after T3: the request [00 4D 01] from address 80 with context 7, armed at 10. -/
def trackerT3 (st : TrackerState) : Tracker :=
  { state := st, payload := #v[some 0x00, some 0x4D, some 0x01], ctx := some 7, addr := some 0x80, mode := some true
    dl := { start := 10, duration := 3000, forced := false } }

/-- After reset, with T3's tracker in the standalone unit. -/
def afterT3 (st : TrackerState) : State := { State.reset with trk := trackerT3 st, trkLast := 10 }

/-- After reset, with T3's tracker in the engine, and bytes in RX. -/
def requested (st : TrackerState) (rx : List Byte) : State :=
  { State.reset with eng := { State.reset.eng with trk := trackerT3 st, tLast := 10 }, rx := rx }

/-- `s` with one input. -/
def given (i : Input) (s : State) : State := { s with inputs := [i] }

/-! ## Well-formedness: an ill-formed term for each check -/

theorem test_wf_crcSpan_refuses : (Instr.crcSpan 3 [0x01, 0x02]).wf = false := by decide
theorem test_wf_crcSpan_accepts : (Instr.crcSpan 2 [0x01, 0x02]).wf = true := by decide
theorem test_wf_fbBuild_refuses : (Instr.fbBuild 0x80 0x28 true 1 []).wf = false := by decide
theorem test_wf_fbBuild_accepts : (Instr.fbBuild 0x80 0x28 true 1 [0x05]).wf = true := by decide

theorem test_decode_refuses_length : decode ⟨0x05, [.nat 3, .bytes [0x01, 0x02]]⟩ = .error .operandShape := rfl
theorem test_decode_refuses_payload_length :
    decode ⟨0x20, [.u8 0x80, .u8 0x28, .bool true, .nat 1, .bytes []]⟩ = .error .operandShape := rfl
theorem test_decode_refuses_type : decode ⟨0x30, [.bool true]⟩ = .error .operandShape := rfl
theorem test_decode_refuses_code : decode ⟨0x63, []⟩ = .error .unassignedOp := rfl
theorem test_step_refuses_shape :
    step (given (.command ⟨0x05, [.nat 3, .bytes [0x01, 0x02]]⟩) State.reset) = .refused .operandShape := rfl
theorem test_step_undefined_op : step (given (.command ⟨0x00, []⟩) State.reset) = .fault .undefinedOp := rfl

/-! ## Decoding: one command of each constructor, its code written out from the table of R90 -/

theorem test_decode_crcBegin : decode ⟨0b00000001, []⟩ = .ok .crcBegin := rfl
theorem test_decode_crcWrite : decode ⟨0b00000010, [.u8 0x7F]⟩ = .ok (.crcWrite 0x7F) := rfl
theorem test_decode_crcEnd : decode ⟨0b00000011, []⟩ = .ok .crcEnd := rfl
theorem test_decode_crcValue : decode ⟨0b00000100, []⟩ = .ok .crcValue := rfl
theorem test_decode_crcSpan : decode ⟨0b00000101, [.nat 2, .bytes [0x80, 0x28]]⟩ = .ok (.crcSpan 2 [0x80, 0x28]) := rfl
theorem test_decode_vcEnc : decode ⟨0b00010000, [.int (-500), .u8 0x02]⟩ = .ok (.vcEnc (-500) 0x02) := rfl
theorem test_decode_vcDec : decode ⟨0b00010001, [.u8 0x01, .u8 0x74, .u8 0x03]⟩ = .ok (.vcDec 0x01 0x74 0x03) := rfl
theorem test_decode_fbBuild : decode ⟨0b00100000, [.u8 0x80, .u8 0x28, .bool false, .nat 1, .bytes [0x05]]⟩ =
    .ok (.fbBuild 0x80 0x28 false 1 [0x05]) := rfl
theorem test_decode_faFeed : decode ⟨0b00110000, [.u8 0x80]⟩ = .ok (.faFeed 0x80) := rfl
theorem test_decode_faReady : decode ⟨0b00110001, []⟩ = .ok .faReady := rfl
theorem test_decode_faView : decode ⟨0b00110010, []⟩ = .ok .faView := rfl
theorem test_decode_faReset : decode ⟨0b00110011, []⟩ = .ok .faReset := rfl
theorem test_decode_dlReset : decode ⟨0b01000000, [.nat 250]⟩ = .ok (.dlReset 250) := rfl
theorem test_decode_dlExpire : decode ⟨0b01000001, []⟩ = .ok .dlExpire := rfl
theorem test_decode_dlExpired : decode ⟨0b01000010, [.nat 3000]⟩ = .ok (.dlExpired 3000) := rfl
theorem test_decode_rtArm :
    decode ⟨0b01010000, [.bytes [0x00, 0x4D, 0x01], .ctx 7, .u8 0x80, .bool true, .nat 10]⟩ =
      .ok (.rtArm #v[0x00, 0x4D, 0x01] 7 0x80 true 10) := rfl
theorem test_decode_rtMarkSent : decode ⟨0b01010001, []⟩ = .ok .rtMarkSent := rfl
theorem test_decode_rtClear : decode ⟨0b01010010, []⟩ = .ok .rtClear := rfl
theorem test_decode_rtPending : decode ⟨0b01010011, []⟩ = .ok .rtPending := rfl
theorem test_decode_rtExpired : decode ⟨0b01010100, [.nat 3009]⟩ = .ok (.rtExpired 3009) := rfl
theorem test_decode_rtReset : decode ⟨0b01010101, [.nat 3010]⟩ = .ok (.rtReset 3010) := rfl
theorem test_decode_rtExpire : decode ⟨0b01010110, []⟩ = .ok .rtExpire := rfl
theorem test_decode_peSet : decode ⟨0b01100000, [.u8 0x80, .u8 0x4D, .u8 0x01, .int 2047, .u8 0x02]⟩ =
    .ok (.peSet 0x80 0x4D 0x01 2047 0x02) := rfl
theorem test_decode_peAsyncGet : decode ⟨0b01100001, [.u8 0x80, .u8 0x4D, .u8 0x01, .u8 0x10, .ctx 3, .nat 5]⟩ =
    .ok (.peAsyncGet 0x80 0x4D 0x01 0x10 3 5) := rfl
theorem test_decode_pePoll : decode ⟨0b01100010, [.nat 5]⟩ = .ok (.pePoll 5) := rfl

theorem test_table_word : decodeTableWord 8 0x40 = some (.dlReset 0) := rfl
theorem test_table_word_unassigned : decodeTableWord 8 0x41 = some .dlExpire ∧ decodeTableWord 8 0x06 = none := ⟨rfl, rfl⟩
theorem test_fetch_runs_the_word : respOf (step (State.reset.withFetchWord 8 0x31)) = some (.flag false) := by decide

/-! ## Construction (R291) -/

theorem test_reset_registers : State.reset.crc = none ∧ State.reset.asm.len = 0 ∧ State.reset.trk.state = .idle ∧
    State.reset.eng.trk.dl.duration = 3000 ∧ State.reset.eng.pollDl.duration = 100 ∧ State.reset.eng.cfg.useCRC = true := by
  decide

/-! ## CRC7 generator -/

theorem test_crcBegin : (nextOf (exec .crcBegin State.reset)).map State.crc = some (some 0x7F) := by decide
/-- CR2 -/
theorem test_crcWrite_CR2 : (nextOf (exec (.crcWrite 0x00) (withCrc 0x7F))).map State.crc = some (some 0x6D) := by decide
/-- CR5 -/
theorem test_crcWrite_CR5 : faultOf (exec (.crcWrite 0x00) State.reset) = some .crcUninit := by decide
/-- CR1 -/
theorem test_crcEnd_CR1 : (nextOf (exec .crcEnd (withCrc 0x6D))).map State.crc = some (some 0x12) := by decide
theorem test_crcEnd_uninit : faultOf (exec .crcEnd State.reset) = some .crcUninit := by decide
/-- CR2: the unwhitened value -/
theorem test_crcValue_CR2 : respOf (exec .crcValue (withCrc 0x6D)) = some (.code 0x6D) := by decide
theorem test_crcValue_uninit : faultOf (exec .crcValue State.reset) = some .crcUninit := by decide
/-- [80 29 00 4D 01], G1's trailer -/
theorem test_crcSpan_G1 : respOf (exec (.crcSpan 5 [0x80, 0x29, 0x00, 0x4D, 0x01]) State.reset) = some (.code 0x37) := by
  decide +kernel
/-- CR7 -/
theorem test_crcSpan_CR7 : respOf (exec (.crcSpan 9 [0x31, 0x32, 0x33, 0x34, 0x35, 0x36, 0x37, 0x38, 0x39]) State.reset) =
    some (.code 0x32) := by decide +kernel

/-! ## Signed-value codec -/

/-- V16 -/
theorem test_vcEnc_V16 : respOf (exec (.vcEnc (-5) 0x02) State.reset) = some (.words 0x03 0x05 0x00) := by decide
/-- V12 -/
theorem test_vcEnc_V12 : respOf (exec (.vcEnc (-16384) 0x00) State.reset) = some (.words 0x01 0x7F 0x7F) := by decide
/-- V20 -/
theorem test_vcDec_V20 : respOf (exec (.vcDec 0x01 0x74 0x03) State.reset) = some (.value (-500)) := by decide
/-- V23 -/
theorem test_vcDec_V23 : respOf (exec (.vcDec 0x01 0xFF 0xFF) State.reset) = some (.value (-32767)) := by decide

/-! ## Frame builder -/

/-- B4: SA -/
theorem test_fbBuild_B4 : respOf (exec (.fbBuild 0x80 0x28 true 5 [0x00, 0x7F, 0x0F, 0x4D, 0x01]) State.reset) =
    some (.frame [0x80, 0x28, 0x00, 0x7F, 0x0F, 0x4D, 0x01, 0x79]) := by decide +kernel
/-- B3 -/
theorem test_fbBuild_B3 : faultOf (exec (.fbBuild 0x80 0x00 true 8 [0, 0, 0, 0, 0, 0, 0, 0]) State.reset) =
    some .frameOverflow := by decide

/-! ## Frame assembler -/

/-- A4: the first eight bytes of R1, then 81 -/
theorem test_faFeed_A4 : (nextOf (exec (.faFeed 0x81) almostR1)).map (fun t => (t.asm.len, t.asm.ready, t.asm.buf[0])) =
    some (1, false, some 0x81) := by decide
/-- A1: the ninth byte of R1 -/
theorem test_faFeed_A1 : (nextOf (exec (.faFeed 0x60) almostR1)).map (fun t => (t.asm.len, t.asm.ready, t.asm.okCRC)) =
    some (9, true, true) := by decide +kernel
/-- After A1 -/
theorem test_faReady_A1 : respOf (exec .faReady holdsR1) = some (.flag true) := by decide
theorem test_faView_A1 : respOf (exec .faView holdsR1) =
    some (.view (some (#v[0x80, 0x49, 0x00, 0x00, 0x7F, 0x0F, 0x4D, 0x01, 0x60], true, false))) := by decide
theorem test_faView_none : respOf (exec .faView almostR1) = some (.view none) := by decide
/-- R168: the cells stay -/
theorem test_faReset_A1 : (nextOf (exec .faReset holdsR1)).map (fun t => (t.asm.len, t.asm.ready, t.asm.okCRC, t.asm.buf[8])) =
    some (0, false, false, some 0x60) := by decide

/-! ## Deadline timer -/

/-- DL3: forced is cleared -/
theorem test_dlReset_DL3 : (nextOf (exec (.dlReset 250) (withDl ⟨0, 100, true⟩ 100))).map (fun t => (t.dl, t.dlLast)) =
    some (⟨250, 100, false⟩, 250) := by decide
theorem test_dlExpire : (nextOf (exec .dlExpire (withDl ⟨0, 100, false⟩ 5))).map State.dl = some ⟨0, 100, true⟩ := by decide
/-- DL1 -/
theorem test_dlExpired_DL1 : respOf (exec (.dlExpired 99) (withDl ⟨0, 100, false⟩ 0)) = some (.flag false) ∧
    respOf (exec (.dlExpired 100) (withDl ⟨0, 100, false⟩ 99)) = some (.flag true) := by decide
/-- DL4, and DL7 for the fault -/
theorem test_dlExpired_DL4_DL7 : respOf (exec (.dlExpired 1000000) (withDl ⟨0, -1, true⟩ 0)) = some (.flag false) ∧
    faultOf (exec (.dlExpired 9) (withDl ⟨0, 100, false⟩ 10)) = some .timeNotMonotonic := by decide

/-! ## Request tracker -/

/-- T3 -/
theorem test_rtArm_T3 : nextOf (exec (.rtArm #v[0x00, 0x4D, 0x01] 7 0x80 true 10) State.reset) =
    some { afterT3 .armed with resp := some (.flag true) } := rfl
/-- T4 -/
theorem test_rtArm_T4 : nextOf (exec (.rtArm #v[0x00, 0x4D, 0x02] 8 0x80 true 11) (afterT3 .armed)) =
    some { afterT3 .armed with trkLast := 11, resp := some (.flag false) } := rfl
/-- T2 -/
theorem test_rtMarkSent_T2 : faultOf (exec .rtMarkSent State.reset) = some .trackerState := by decide
/-- T6 -/
theorem test_rtMarkSent_T6 : nextOf (exec .rtMarkSent (afterT3 .armed)) =
    some { afterT3 .pending with resp := some .done } := rfl
/-- T11 -/
theorem test_rtClear_T11 : nextOf (exec .rtClear (afterT3 .pending)) = some { afterT3 .idle with resp := some .done } := rfl
/-- T5, and R204 in PENDING -/
theorem test_rtPending_T5 : respOf (exec .rtPending (afterT3 .armed)) = some (.flag false) ∧
    respOf (exec .rtPending (afterT3 .pending)) = some (.flag true) := by decide
/-- T8 -/
theorem test_rtExpired_T8 : respOf (exec (.rtExpired 3009) (afterT3 .pending)) = some (.flag false) ∧
    respOf (exec (.rtExpired 3010) (afterT3 .pending)) = some (.flag true) := by decide
/-- T9 -/
theorem test_rtReset_T9 : (nextOf (exec (.rtReset 3010) (afterT3 .pending))).map (fun t => (t.trk.dl, t.trk.state)) =
    some (⟨3010, 3000, false⟩, .pending) := by decide
/-- T10 -/
theorem test_rtExpire_T10 : (nextOf (exec .rtExpire (afterT3 .pending))).map (fun t => t.trk.dl) =
    some ⟨10, 3000, true⟩ := by decide

/-- R33 -/
theorem test_tracker_codes : TrackerState.idle.code = 0 ∧ TrackerState.armed.code = 1 ∧ TrackerState.pending.code = 2 ∧
    (trackerT3 .armed).busy = true ∧ (trackerT3 .idle).busy = false := by decide

/-! ## Protocol engine -/

/-- E1, short of the trailer, which depends on CMD_SET -/
theorem test_peSet_E1 : (nextOf (exec (.peSet 0x80 0x4D 0x01 2047 0x00) State.reset)).map (fun t => t.tx.take 7) =
    some [0x80, Config.cmdSet, 0x00, 0x7F, 0x0F, 0x4D, 0x01] := rfl
/-- Scenario B (95_test_vectors.md 2.2) -/
theorem test_peSet_scenario_B : (nextOf (exec (.peSet 0x80 0x4D 0x01 (-500) 0x00) State.reset)).map
    (fun t => (t.tx.drop 2).take 5) = some [0x01, 0x74, 0x03, 0x4D, 0x01] := rfl
/-- E3: polling disabled, so the request goes out at once -/
theorem test_peAsyncGet_E3 : (nextOf (exec (.peAsyncGet 0x80 0x4D 0x01 0x00 3 5) (configured (-1) 3000 true))).map
    (fun t => (t.tx.take 5, t.eng.trk.state, t.resp)) =
      some ([0x80, Config.cmdGet, 0x00, 0x4D, 0x01], .pending, some (.flag true)) := rfl
/-- Scenario D (95_test_vectors.md 2.4) -/
theorem test_peAsyncGet_scenario_D : (nextOf (exec (.peAsyncGet 0x80 0x4D 0x01 0x00 0 10) (requested .armed []))).map
    (fun t => (t.tx, t.eng.trk.state, t.resp)) = some ([], .armed, some (.flag false)) := rfl
/-- E9: RX keeps its bytes -/
theorem test_pePoll_E9 : (nextOf (exec (.pePoll 3010) (requested .pending [0x80, 0x49]))).map
    (fun t => (t.rx, t.eng.trk.state, t.resp)) =
      some ([0x80, 0x49], .idle, some (.poll true (some .timedOut) (some 7))) := rfl
/-- P1, step 4: the request goes out when the poll deadline has expired, at 100 -/
theorem test_pePoll_P1 : (nextOf (exec (.pePoll 100) (requested .armed []))).map
    (fun t => (t.tx.take 5, t.eng.trk.state, t.eng.pollDl)) =
      some ([0x80, Config.cmdGet, 0x00, 0x4D, 0x01], .pending, ⟨100, 100, false⟩) := rfl

/-- P5, step 2: the rejected GET forces the poll deadline -/
theorem test_getCall_P5 : (nextOf (step (given (.getCall 0x80 0x4D 0x02 0x00 11) (requested .armed [])))).map
    (fun t => (t.eng.pollDl.forced, t.resp)) = some (true, some (.getNum Config.sentinels.busy)) := rfl
/-- R295 step 2 and R301: the host discards what stands in RX, here one byte of two, then more than there are -/
theorem test_rxDiscard : (nextOf (step (given (.rxDiscard 1) (requested .idle [0x80, 0x49])))).map State.rx = some [0x49] ∧
    (nextOf (step (given (.rxDiscard 9) (requested .idle [0x80, 0x49])))).map State.rx = some [] := by decide
/-- P2, step 6: GET returns SENT_TIMEDOUT -/
theorem test_getPoll_P2 : respOf (step (given (.getPoll 3010) (requested .pending []))) =
    some (.getNum Config.sentinels.timedOut) := rfl
/-- P1, step 5: 13 is dropped, 80 starts a frame -/
theorem test_drain_P1 : (nextOf (exec (.pePoll 120) (requested .pending [0x13, 0x80]))).map
    (fun t => (t.rx, t.eng.asm.len, t.eng.asm.buf[0], t.resp)) = some ([], 1, some 0x80, some (.poll false none none)) := rfl

/-! ## Witnesses: states with the invariant -/

theorem inv_configured (p t : Int) (u : Bool) : Inv (configured p t u) :=
  ⟨assemblerInv_construct, Nat.le_refl _, trackerInv_construct .., engineInv_construct _⟩

theorem inv_reset : Inv State.reset :=
  ⟨assemblerInv_construct, Nat.le_refl _, trackerInv_construct .., engineInv_construct _⟩

theorem inv_given {s : State} (h : Inv s) (i : Input) : Inv (given i s) := ⟨h.asm, h.dl, h.trk, h.eng⟩

theorem inv_requested (st : TrackerState) (rx : List Byte) : Inv (requested st rx) where
  asm := assemblerInv_construct
  dl := Nat.le_refl _
  trk := trackerInv_construct ..
  eng :=
    { asm := assemblerInv_construct
      notReady := rfl
      empty := fun _ => rfl
      trk := ⟨fun _ => ⟨⟨_, rfl⟩, ⟨_, rfl⟩⟩, ⟨rfl, Nat.le_refl _⟩⟩
      mode := fun _ => rfl
      armed := fun _ => rfl
      pollDl := ⟨rfl, Nat.zero_le _⟩ }

/-- The first eight bytes of a reply from the address `a` to the request of T3, with any reserved byte. -/
def replyBody (a : Byte) : Vector Byte 8 := #v[a, Config.cmdReply, 0x00, 0x55, 0x7F, 0x0F, 0x4D, 0x01]

/-- The request of T3 is pending, the reply's first eight bytes are in the assembler, its trailer and one more byte in RX. -/
def lastByteWaits (a : Byte) : State :=
  { requested .pending [trailer true (replyBody a).toList, 0x55] with
    eng := { (requested .pending []).eng with asm := eightBytes (replyBody a) } }

/-- The assembler of `lastByteWaits` once it has read the trailer. -/
def replyAssembled (a : Byte) : Assembler :=
  { (eightBytes (replyBody a)).append (trailer true (replyBody a).toList) with
    okCRC := true
    okSum := ((eightBytes (replyBody a)).append (trailer true (replyBody a).toList)).matchesSum
    ready := true }

theorem feed_reply (a : Byte) :
    feedAll [trailer true (replyBody a).toList] (eightBytes (replyBody a)) = replyAssembled a := by
  rw [feedAll_cons, feedAll_nil, Assembler.feed_complete rfl (trailer_high ..) rfl, Assembler.complete]
  have h : ((eightBytes (replyBody a)).append (trailer true (replyBody a).toList)).matchesCRC = true := by
    have hb : ((eightBytes (replyBody a)).append (trailer true (replyBody a).toList)).body? = some (replyBody a).toList := rfl
    have h8 : ((eightBytes (replyBody a)).append (trailer true (replyBody a).toList)).buf[8] =
      some (trailer true (replyBody a).toList) := rfl
    simp only [Assembler.matchesCRC, hb, h8, beq_self_eq_true]
  rw [h]; rfl

/-- The frame of the reply. -/
def replyFrame (a : Byte) : Vector Byte 9 :=
  #v[a, Config.cmdReply, 0x00, 0x55, 0x7F, 0x0F, 0x4D, 0x01, trailer true (replyBody a).toList]

theorem replyAssembled_cells (a : Byte) (i : Fin 9) : (replyAssembled a).buf[i] = some (replyFrame a)[i] := by
  match i with
  | 0 | 1 | 2 | 3 | 4 | 5 | 6 | 7 | 8 => rfl

/-- E15 on a waiting last byte: the poll delivers 2047 whatever CMD_REPLY is, and the byte behind the frame stays (P1, step 6). -/
theorem test_pePoll_value : (nextOf (exec (.pePoll 11) (lastByteWaits 0x80))).map (fun t => (t.rx, t.resp)) =
    some ([0x55], some (.poll true (some (.value 2047)) (some 7))) := by
  have hd : drain (eightBytes (replyBody 0x80)) [trailer true (replyBody 0x80).toList, 0x55] = (replyAssembled 0x80, [0x55]) := by
    have := feed_reply 0x80
    rw [feedAll_cons, feedAll_nil] at this
    rw [drain, if_neg (by decide), this]
    exact drain_ready rfl _
  have hc : correlates ⟨0x80, true, 0x00, 0x4D, 0x01⟩ (replyFrame 0x80) true (replyAssembled 0x80).okSum = true := by
    simp [correlates, replyFrame]
  have hp : pollStep 11 (lastByteWaits 0x80) = .ok (some (.value 2047, 7),
      ((((lastByteWaits 0x80).setEngLast 11).setRx [0x55]).setEngAsm (replyAssembled 0x80).clear).setEngTrk
        (trackerT3 .pending).clear) := by
    rw [pollStep_pending (by decide) rfl, pollPending, if_neg (by decide)]
    have hd' : drain ((lastByteWaits 0x80).setEngLast 11).eng.asm ((lastByteWaits 0x80).setEngLast 11).rx =
      (replyAssembled 0x80, [0x55]) := hd
    simp only [hd', State.setRx_eng, State.setEngAsm_eng_asm, show (replyAssembled 0x80).ready = true from rfl, ↓reduceIte,
      correlateReply, Assembler.frame?_of_cells (replyAssembled_cells 0x80), State.setEngAsm_eng_trk, State.setEngLast_eng_trk,
      show (lastByteWaits 0x80).eng.trk.wire? = some ⟨0x80, true, 0x00, 0x4D, 0x01⟩ from rfl,
      show (replyAssembled 0x80).okCRC = true from rfl, hc]
    rfl
  rw [exec_pePoll_next.2 ⟨_, _, hp, rfl⟩]
  rfl

/-! ## Witnesses: the hypotheses of each obligation that has any, met together -/

theorem witness_ConstructionSetsEveryRegister : ∃ (r : ResetInputs) (tx rx : List Byte) (ins : List Input) (s : State),
    s = State.construct r tx rx ins ∧ r.t0 = 10 := ⟨⟨some 5000, none, some false, 10, -1⟩, [0x80], [0x22], [.getPoll 11], _, rfl, rfl⟩

theorem witness_ConfigurationIsLatchedAndNeverWritten :
    (∃ r : ResetInputs, r.pollIntervalMs = none ∧ r.timeoutMs = none ∧ r.useCRC = none) ∧
    (∃ r : ResetInputs, r.pollIntervalMs = some (-1) ∧ r.timeoutMs = some 0 ∧ r.useCRC = some false) ∧
    (∃ t, exec (.pePoll 100) (requested .armed []) = .next t) ∧ (∃ d : Deadline, d.duration < 0 ∧ d.duration = -1) :=
  ⟨⟨⟨none, none, none, 0, 0⟩, rfl, rfl, rfl⟩, ⟨⟨some (-1), some 0, some false, 0, 0⟩, rfl, rfl, rfl⟩, ⟨_, rfl⟩,
    ⟨0, -1, false⟩, by decide, rfl⟩

theorem witness_EveryStepKeepsTheInvariant : ∃ s t, Inv s ∧ step s = .next t ∧ t.eng.trk.state = .pending :=
  ⟨given (.command ⟨0x62, [.nat 100]⟩) (requested .armed []), _, inv_given (inv_requested ..) _, rfl, rfl⟩

theorem witness_DecodeAndEncodeAgree : (∃ i : Instr, i.wf = true ∧ i = .crcSpan 1 [0x80]) ∧
    (∃ c i, decode c = .ok i ∧ i = .crcSpan 1 [0x80]) := ⟨⟨_, rfl, rfl⟩, ⟨⟨0x05, [.nat 1, .bytes [0x80]]⟩, _, rfl, rfl⟩⟩

theorem witness_UnassignedCodesFault :
    (∀ c ∈ [0x00, 0x06, 0x0F, 0x12, 0x1F, 0x21, 0x2F, 0x34, 0x3F, 0x43, 0x4F, 0x57, 0x5F, 0x63, (0xFF : Byte)],
      Op.ofCode c = none) ∧
    (∃ (s : State) (c : Command) (rest : List Input), s.inputs = Input.command c :: rest ∧ Op.ofCode c.op = none) ∧
    (∃ payload : List Byte, payload.length = 8 ∧ 7 < 8) :=
  ⟨by decide, ⟨given (.command ⟨0x63, []⟩) State.reset, _, _, rfl, rfl⟩, ⟨[0, 0, 0, 0, 0, 0, 0, 0], rfl, by decide⟩⟩

theorem witness_StepRunsTheDecodedInstruction :
    (∃ (s : State) (c : Command) (rest : List Input) (i : Instr), s.inputs = Input.command c :: rest ∧ decode c = .ok i ∧ i = .faFeed 0x80) ∧
    (∃ (s : State) (rest : List Input) (i : Instr), s.inputs = Input.command (encode i) :: rest ∧ i.wf = true ∧ i = .faFeed 0x80) :=
  ⟨⟨given (.command ⟨0x30, [.u8 0x80]⟩) State.reset, _, _, _, rfl, rfl, rfl⟩,
    ⟨given (.command (encode (.faFeed 0x80))) State.reset, _, _, rfl, rfl, rfl⟩⟩

theorem witness_IdleAndReceiveSteps : State.reset.inputs = [] ∧
    (∃ (s : State) (bytes : List Byte) (rest : List Input), s.inputs = Input.rxBytes bytes :: rest ∧ bytes = [0x55]) ∧
    (∃ (s : State) (count : Nat) (rest : List Input), s.inputs = Input.rxDiscard count :: rest ∧ count = 1) ∧
    (∃ (s : State) (r : ResetInputs) (rest : List Input), s.inputs = Input.construct r :: rest ∧ r.t0 = 10) :=
  ⟨rfl, ⟨given (.rxBytes [0x55]) State.reset, _, _, rfl, rfl⟩, ⟨given (.rxDiscard 1) State.reset, _, _, rfl, rfl⟩,
    ⟨given (.construct ⟨none, none, none, 10, 0⟩) State.reset, _, _, rfl, rfl⟩⟩

theorem witness_CrcRegisterOperations : State.reset.crc = none ∧ (withCrc 0x7F).crc = some 0x7F := ⟨rfl, rfl⟩

theorem witness_CrcStepStaysSevenBits : 0 < 8 ∧ 7 < 8 := by decide

/-- The first and the last bit of a byte. -/
theorem witness_CrcDetectsEverySingleBitError : 0 < 8 ∧ 7 < 8 ∧ [0x31] ++ [(0x32 : Byte)] ++ [0x33] = [0x31, 0x32, 0x33] := by
  decide

/-- The boundary values of the clauses: -1 and 0; -16383 and 16383; -16384 and 16384 (V1, V3, V9 to V12). -/
theorem witness_EncodeSaturatesAndSplits :
    respOf (exec (.vcEnc (-1) 0) State.reset) = some (.words 1 1 0) ∧
    respOf (exec (.vcEnc 0 0) State.reset) = some (.words 0 0 0) ∧
    respOf (exec (.vcEnc 16383 0) State.reset) = some (.words 0 0x7F 0x7F) ∧
    respOf (exec (.vcEnc (-16383) 0) State.reset) = some (.words 1 0x7F 0x7F) ∧
    respOf (exec (.vcEnc 16384 0) State.reset) = some (.words 0 0x7F 0x7F) := by decide

/-- Both signs (V24, V25), and a word with bit 7 set (V22). -/
theorem witness_DecodeIsTheLiteralFormula :
    respOf (exec (.vcDec 0x00 0x7F 0x7F) State.reset) = some (.value 16383) ∧
    respOf (exec (.vcDec 0x03 0x7F 0x7F) State.reset) = some (.value (-16383)) ∧
    respOf (exec (.vcDec 0x00 0xFF 0xFF) State.reset) = some (.value 32767) := by decide

/-- V9 and back, at the bound of the range with even extra flags; V18, a zero with odd extra flags. -/
theorem witness_CodecRoundTrip :
    (∃ t u, exec (.vcEnc 16383 0x02) State.reset = .next t ∧ t.resp = some (.words 0x02 0x7F 0x7F) ∧
      exec (.vcDec 0x02 0x7F 0x7F) t = .next u ∧ u.resp = some (.value 16383) ∧ (0x02 : Byte).getLsbD 0 = false) ∧
    (∃ t u, exec (.vcEnc 0 0x01) State.reset = .next t ∧ t.resp = some (.words 0x01 0x00 0x00) ∧
      exec (.vcDec 0x01 0x00 0x00) t = .next u ∧ u.resp = some (.value 0) ∧ (0x01 : Byte).getLsbD 0 = true) :=
  ⟨⟨_, _, rfl, by decide, rfl, by decide, by decide⟩, _, _, rfl, by decide, rfl, by decide, by decide⟩

/-- V16. -/
theorem witness_EncoderRange : ∃ t, exec (.vcEnc (-5) 0x02) State.reset = .next t ∧ t.resp = some (.words 0x03 0x05 0x00) ∧
    (1 ≤ 1 ∧ 7 < 8) := ⟨_, rfl, by decide, by decide⟩

/-- Payloads of 7 and 8 bytes; both modes. -/
theorem witness_BuildLaysOutTheFrame : (List.replicate 7 (0x01 : Byte)).length ≤ 7 ∧
    7 < (List.replicate 8 (0x01 : Byte)).length ∧ (true = true ∧ false = false) := by decide

/-- Ready; a start byte; a body byte with nothing held, with 1 byte held and with 7. -/
theorem witness_FeedDropsStartsAndAppends : holdsR1.asm.ready = true ∧
    (almostR1.asm.ready = false ∧ (0x81 : Byte).getLsbD 7 = true) ∧
    (State.reset.asm.ready = false ∧ (0x05 : Byte).getLsbD 7 = false ∧ State.reset.asm.len.val = 0) ∧
    (∀ l ∈ [1, 7], ∃ s : State, s.asm.ready = false ∧ (0x05 : Byte).getLsbD 7 = false ∧ s.asm.len.val = l ∧ 1 ≤ l ∧ l ≤ 7) := by
  refine ⟨rfl, ⟨rfl, by decide⟩, ⟨rfl, by decide, rfl⟩, ?_⟩
  intro l hl
  simp only [List.mem_cons, List.not_mem_nil, or_false] at hl
  rcases hl with rfl | rfl
  · exact ⟨{ State.reset with asm := { eightBytes bodyR1 with len := 1 } }, by decide⟩
  · exact ⟨{ State.reset with asm := { eightBytes bodyR1 with len := 7 } }, by decide⟩

/-- Both of its clauses: the trailer 0x60 of R1, and one of 0x61 and 0x62, which CHECKSUM cannot both equal. -/
theorem witness_NinthByteChecksTheTrailer :
    (almostR1.asm.ready = false ∧ almostR1.asm.len.val = 8 ∧ (∀ i : Fin 8, almostR1.asm.buf[i.val] = some bodyR1[i])) ∧
    ((0x60 : Byte).getLsbD 7 = false ∧ (0x60 : Byte) = (crc7 bodyR1.toList).setWidth 8) ∧
    (∃ b : Byte, b.getLsbD 7 = false ∧ b ≠ (crc7 bodyR1.toList).setWidth 8 ∧
      b ≠ (Config.checksum bodyR1.toList).setWidth 8) := by
  have hc : (crc7 bodyR1.toList).setWidth 8 = (0x60 : Byte) := by decide +kernel
  refine ⟨⟨rfl, rfl, by decide⟩, ⟨by decide, hc.symm⟩, ?_⟩
  rw [hc]
  by_cases h : (0x61 : Byte) = (Config.checksum bodyR1.toList).setWidth 8
  · exact ⟨0x62, by decide, by decide, by rw [← h]; decide⟩
  · exact ⟨0x61, by decide, by decide, h⟩

theorem witness_ReadyViewAndReset : State.reset.asm.ready = false ∧ holdsR1.asm.ready = true ∧
    ∀ i : Fin 9, holdsR1.asm.buf[i] = some (#v[0x80, 0x49, 0x00, 0x00, 0x7F, 0x0F, 0x4D, 0x01, 0x60] : Vector Byte 9)[i] := by
  decide

/-- A false start before R1 (A1). -/
theorem witness_AssemblerResynchronizes : ∃ (s : State) (lead : List Byte) (f : Vector Byte 9),
    (∀ p t, p <+: lead → execAll (p.map .faFeed) s = .next t → t.asm.ready = false) ∧
    f[0].getLsbD 7 = true ∧ (∀ i : Fin 9, i.val ≠ 0 → f[i].getLsbD 7 = false) ∧
    f[8] = (crc7 (f.toList.take 8)).setWidth 8 := by
  refine ⟨State.reset, [0x80], #v[0x80, 0x49, 0x00, 0x00, 0x7F, 0x0F, 0x4D, 0x01, 0x60], ?_, by decide, by decide,
    by decide +kernel⟩
  intro p t hp ht
  obtain rfl | rfl : p = [] ∨ p = [0x80] := by
    cases p with
    | nil => exact .inl rfl
    | cons b q =>
      obtain ⟨rfl, hq⟩ := List.cons_prefix_cons.1 hp
      rw [List.prefix_nil.1 hq]; exact .inr rfl
  · cases ht; rfl
  · cases ht; rfl

theorem witness_DeadlineOperations : (withDl ⟨0, 100, false⟩ 10).dlLast ≤ 10 ∧ 9 < (withDl ⟨0, 100, false⟩ 10).dlLast := by
  decide

theorem witness_InfiniteOverridesForcedExpiry :
    (withDl ⟨0, -1, false⟩ 10).dl.duration < 0 ∧ (withDl ⟨0, -1, false⟩ 10).dlLast ≤ 10 := by decide

theorem witness_ExpiryIsMonotone :
    (100 ≤ 101 ∧ (⟨0, 100, false⟩ : Deadline).expired 100 = true) ∧
    (∃ t, exec .dlExpire (withDl ⟨0, 100, false⟩ 0) = .next t ∧ (∀ now, Instr.dlExpire ≠ .dlReset now) ∧
      (withDl ⟨0, 100, false⟩ 0).dl.expired 100 = true) :=
  ⟨by decide, _, rfl, by simp, by decide⟩

theorem witness_FiniteCounterAgreesBelowItsRange : 3 ≤ 3 + 2 ^ 16 := by decide

theorem witness_TimeInputsAreMonotone :
    (Instr.now? (.dlExpired 9) = some 9 ∧ 9 < Instr.clock (.dlExpired 9) (withDl ⟨0, 100, false⟩ 10)) ∧
    (∃ t, Instr.now? (.dlExpired 10) = some 10 ∧ exec (.dlExpired 10) (withDl ⟨0, 100, false⟩ 10) = .next t) :=
  ⟨by decide, _, rfl, rfl⟩

theorem witness_ArmStoresOnlyFromIdle : (State.reset.trkLast ≤ 0 ∧ State.reset.trk.state = .idle) ∧
    ((afterT3 .armed).trkLast ≤ 10 ∧ (afterT3 .armed).trk.state ≠ .idle) ∧ 9 < (afterT3 .armed).trkLast := by decide

theorem witness_TrackerOperations : (afterT3 .armed).trk.state = .armed ∧ (afterT3 .pending).trk.state ≠ .armed ∧
    (afterT3 .pending).trkLast ≤ 10 ∧ 9 < (afterT3 .pending).trkLast := by decide

theorem witness_TrackerStateTransitions : (∃ t, exec (.rtArm #v[0x00, 0x4D, 0x01] 7 0x80 true 10) State.reset = .next t) ∧
    (afterT3 .pending).trk.state ≠ .armed := ⟨⟨_, rfl⟩, by decide⟩

/-- T3, T6 and T7. -/
theorem witness_TrackerMutualExclusion : ∃ t u v,
    exec (.rtArm #v[0x00, 0x4D, 0x01] 7 0x80 true 10) State.reset = .next t ∧ t.resp = some (.flag true) ∧
    Instr.rtClear ∉ [Instr.rtMarkSent] ∧ execAll [.rtMarkSent] t = .next u ∧
    exec (.rtArm #v[0x00, 0x4D, 0x02] 8 0x80 true 12) u = .next v := ⟨_, _, _, rfl, rfl, by simp, rfl, rfl⟩

theorem witness_AsyncGetArmsOrTransmits :
    ((configured 1 3000 true).eng.tLast ≤ 0 ∧ (configured 1 3000 true).eng.trk.state = .idle ∧
      0 < (configured 1 3000 true).eng.cfg.pollIntervalMs) ∧
    ((configured 0 3000 true).eng.tLast ≤ 0 ∧ (configured 0 3000 true).eng.trk.state = .idle ∧
      (configured 0 3000 true).eng.cfg.pollIntervalMs ≤ 0) ∧
    ((requested .armed []).eng.tLast ≤ 10 ∧ (requested .armed []).eng.trk.state ≠ .idle) ∧
    9 < (requested .armed []).eng.tLast := by decide

/-- E9 at the deadline's first millisecond; E11 for the infinite timeout. -/
theorem witness_PollTimesOutBeforeReading :
    ((requested .pending [0x80]).eng.tLast ≤ 3010 ∧ (requested .pending [0x80]).eng.trk.state = .pending ∧
      (requested .pending [0x80]).eng.trk.ctx = some 7 ∧ 0 ≤ (requested .pending [0x80]).eng.trk.dl.duration ∧
      (requested .pending [0x80]).eng.trk.dl.duration ≤
        ((3010 : Nat) : Int) - ((requested .pending [0x80]).eng.trk.dl.start : Int)) ∧
    (∃ t, (configured (-1) (-1) true).eng.trk.dl.duration < 0 ∧
      exec (.pePoll 1000000000) (configured (-1) (-1) true) = .next t) :=
  ⟨⟨by decide, rfl, rfl, by decide, by decide⟩, _, by decide, rfl⟩

theorem prefix_singleton {p : List Byte} {b : Byte} (h : p <+: [b]) : p = [] ∨ p = [b] := by
  cases p with
  | nil => exact .inl rfl
  | cons c q =>
    obtain ⟨rfl, hq⟩ := List.cons_prefix_cons.1 h
    rw [List.prefix_nil.1 hq]; exact .inr rfl

theorem witness_PollDrainsAllOfRxWhenNotReady :
    (requested .pending [0x80]).eng.tLast ≤ 3009 ∧ (requested .pending [0x80]).eng.trk.state = .pending ∧
    (requested .pending [0x80]).eng.trk.dl.expired 3009 = false ∧
    (∀ p, p <+: (requested .pending [0x80]).rx → (feedAll p (requested .pending [0x80]).eng.asm).ready = false) := by
  refine ⟨by decide, rfl, by decide, fun p hp => ?_⟩
  rcases prefix_singleton hp with rfl | rfl <;> rfl

/-- The hypotheses that PollDeliversTheMatchingReply and PollFlushesOnMismatch share, on a reply from the address `a`. -/
theorem witness_reply_waits (a : Byte) :
    (lastByteWaits a).eng.tLast ≤ 11 ∧ (lastByteWaits a).eng.trk.state = .pending ∧
    (lastByteWaits a).eng.trk.dl.expired 11 = false ∧ (lastByteWaits a).eng.trk.ctx = some 7 ∧
    (lastByteWaits a).eng.trk.wire? = some ⟨0x80, true, 0x00, 0x4D, 0x01⟩ ∧
    (lastByteWaits a).rx = [trailer true (replyBody a).toList] ++ [0x55] ∧
    (∀ p, p <+: [trailer true (replyBody a).toList] → p ≠ [trailer true (replyBody a).toList] →
      (feedAll p (lastByteWaits a).eng.asm).ready = false) ∧
    (feedAll [trailer true (replyBody a).toList] (lastByteWaits a).eng.asm).ready = true ∧
    (∀ i : Fin 9, (feedAll [trailer true (replyBody a).toList] (lastByteWaits a).eng.asm).buf[i] = some (replyFrame a)[i]) := by
  have hf : feedAll [trailer true (replyBody a).toList] (lastByteWaits a).eng.asm = replyAssembled a := feed_reply a
  refine ⟨Nat.le_succ _, rfl, rfl, rfl, rfl, rfl, fun p hp hne => ?_, by rw [hf]; rfl, by rw [hf]; exact replyAssembled_cells a⟩
  rcases prefix_singleton hp with rfl | rfl
  · rfl
  · exact absurd rfl hne

/-- With `witness_reply_waits 0x80`, the reserved byte being 0x55 (E15). -/
theorem witness_PollDeliversTheMatchingReply : correlates ⟨0x80, true, 0x00, 0x4D, 0x01⟩ (replyFrame 0x80)
    (feedAll [trailer true (replyBody 0x80).toList] (lastByteWaits 0x80).eng.asm).okCRC
    (feedAll [trailer true (replyBody 0x80).toList] (lastByteWaits 0x80).eng.asm).okSum = true := by
  have hf : feedAll [trailer true (replyBody 0x80).toList] (lastByteWaits 0x80).eng.asm = replyAssembled 0x80 := feed_reply _
  rw [hf]
  simp [correlates, replyFrame, replyAssembled]

/-- With `witness_reply_waits 0x81`: a reply from another address (E7). -/
theorem witness_PollFlushesOnMismatch : correlates ⟨0x80, true, 0x00, 0x4D, 0x01⟩ (replyFrame 0x81)
    (feedAll [trailer true (replyBody 0x81).toList] (lastByteWaits 0x81).eng.asm).okCRC
    (feedAll [trailer true (replyBody 0x81).toList] (lastByteWaits 0x81).eng.asm).okSum = false := by
  simp [correlates, replyFrame]

theorem witness_PollSendsTheArmedRequest : (requested .armed []).eng.tLast ≤ 100 ∧ (requested .armed []).eng.trk.state = .armed ∧
    (requested .armed []).eng.trk.wire? = some ⟨0x80, true, 0x00, 0x4D, 0x01⟩ ∧
    (requested .armed []).eng.pollDl.expired 100 = true := by decide

theorem witness_PollWithNothingToDo : (State.reset.eng.tLast ≤ 0 ∧ State.reset.eng.trk.state = .idle) ∧
    ((requested .armed []).eng.tLast ≤ 99 ∧ (requested .armed []).eng.trk.state = .armed ∧
      (requested .armed []).eng.pollDl.expired 99 = false) ∧
    (∃ t, (requested .armed [0x80]).eng.trk.state ≠ .pending ∧ exec (.pePoll 100) (requested .armed [0x80]) = .next t) :=
  ⟨by decide, by decide, _, by decide, rfl⟩

theorem witness_FaultsExactlyAsTheTable : Inv (requested .armed []) ∧
    (∀ i ∈ [Instr.crcEnd, .fbBuild 0x80 0 true 8 [0, 0, 0, 0, 0, 0, 0, 0], .rtMarkSent, .pePoll 9],
      ∃ f, i.fault? (requested .armed []) = some f) ∧
    (∀ i ∈ [Instr.crcBegin, .fbBuild 0x80 0 true 7 [0, 0, 0, 0, 0, 0, 0], .rtClear, .pePoll 10, .faView],
      i.fault? (requested .armed []) = none) ∧
    (Inv (given (.command ⟨0x63, []⟩) State.reset) ∧ Op.ofCode 0x63 = none) := by
  refine ⟨inv_requested .., ?_, by decide, inv_given inv_reset _, rfl⟩
  intro i hi
  simp only [List.mem_cons, List.not_mem_nil, or_false] at hi
  rcases hi with rfl | rfl | rfl | rfl <;> exact ⟨_, rfl⟩

theorem witness_UnitsAndEngineAreSeparate :
    (∃ t, exec (.rtArm #v[0, 0, 0] 7 0x80 true 10) State.reset = .next t ∧
      Instr.isEngine (.rtArm #v[0, 0, 0] 7 0x80 true 10) = false) ∧
    (∃ t, exec (.pePoll 100) (requested .armed []) = .next t ∧ Instr.isEngine (.pePoll 100) = true) :=
  ⟨⟨_, rfl, rfl⟩, _, rfl, rfl⟩

theorem witness_EngineIgnoresTheStandaloneUnits : ∃ s s' t : State, Instr.isEngine (.pePoll 100) = true ∧ s'.eng = s.eng ∧
    s'.tx = s.tx ∧ s'.rx = s.rx ∧ s'.crc ≠ s.crc ∧ exec (.pePoll 100) s = .next t :=
  ⟨State.reset, withCrc 0x7F, _, rfl, rfl, rfl, rfl, by decide, rfl⟩

theorem witness_StreamsAreUsedOnlyAsOwned :
    (∃ t, exec (.peSet 0x80 0x4D 0x01 2047 0x00) State.reset = .next t ∧ t.tx ≠ State.reset.tx) ∧
    (∃ t, exec (.pePoll 10) (requested .pending [0x13]) = .next t ∧ t.rx ≠ (requested .pending [0x13]).rx) :=
  ⟨⟨_, rfl, List.cons_ne_nil _ _⟩, _, rfl, (List.cons_ne_nil _ _).symm⟩

theorem quietStep_of {s t : State} {i : Input} {rest : List Input} (h : s.inputs = i :: rest) (hc : ∀ r, i ≠ .construct r)
    (hd : ¬ Delivers i t) : QuietStep s t := by
  intro j q hj
  rw [h] at hj
  cases hj
  exact ⟨hc, hd⟩

/-- Noise, a poll that is not ready and a GET that is rejected: quiet inputs of three kinds. -/
def quietInputs : List Input := [.rxBytes [0x13], .command ⟨0x62, [.nat 50]⟩, .getCall 0x80 0x4D 0x02 0x00 60]

/-- A state with the request of P1's step 1 (or another's fields) stored in the engine and the three quiet inputs waiting. -/
def storedRequest (s : State) : State := { s with inputs := quietInputs }

theorem quiet_reset {t : State} (h : exec (.peAsyncGet 0x80 0x4D 0x01 0x00 7 10) (storedRequest State.reset) = .next t) :
    Quiet 3 t := by
  cases h
  exact quiet_succ rfl (quietStep_of rfl (by simp) id)
    (quiet_succ rfl (quietStep_of rfl (by simp) fun ⟨_, _, h⟩ => nomatch h)
      (quiet_succ rfl (quietStep_of rfl (by simp) id) trivial))

theorem quietStep_poll {s t : State} {c : Command} {rest : List Input} {o : Option PollOutcome} {x : Option Ctx}
    (h : s.inputs = .command c :: rest) (hr : t.resp = some (.poll false o x)) : QuietStep s t :=
  quietStep_of h (by simp) fun ⟨_, _, h⟩ => by rw [hr] at h; cases h

theorem quiet_pending {t : State}
    (h : exec (.peAsyncGet 0x80 0x4D 0x01 0x00 7 10) (storedRequest (configured (-1) 3000 true)) = .next t) : Quiet 3 t := by
  cases h
  exact quiet_succ rfl (quietStep_of rfl (by simp) id)
    (quiet_succ rfl (quietStep_poll (o := none) (x := none) rfl rfl)
      (quiet_succ rfl (quietStep_of rfl (by simp) id) trivial))

theorem accepts_of {a ty nu mo : Byte} {c : Ctx} {n : Nat} {s t : State} (h : exec (.peAsyncGet a ty nu mo c n) s = .next t)
    (hr : t.resp = some (.flag true)) : Accepts c n s t := .inl ⟨a, ty, nu, mo, h, hr⟩

/-- P1, steps 1 to 3, with noise and a rejected GET in between; and a GET that is accepted. -/
theorem witness_OneOutstandingRequest :
    (∃ t u v, Accepts 7 10 (storedRequest State.reset) t ∧ Quiet 3 t ∧ core.run 3 t = .next u ∧
      exec (.peAsyncGet 0x80 0x4D 0x02 0x00 8 70) u = .next v) ∧
    (∃ t, Accepts 0 10 State.reset t ∧ t.eng.pollDl.forced = true) :=
  ⟨⟨_, _, _, accepts_of rfl rfl, quiet_reset rfl, rfl, rfl⟩, _, .inr ⟨rfl, 0x80, 0x4D, 0x01, 0x00, rfl, rfl⟩, rfl⟩

/-- P5's rejected GET, after the same run. -/
theorem witness_GetIsRejectedWhileARequestIsOutstanding : ∃ t u v, Accepts 7 10 (storedRequest State.reset) t ∧ Quiet 3 t ∧
    core.run 3 t = .next u ∧ getCall 0x80 0x4D 0x02 0x00 70 u = .next v :=
  ⟨_, _, _, accepts_of rfl rfl, quiet_reset rfl, rfl, rfl⟩

/-- Its clauses in turn, noise, a poll and a rejected GET in between: PENDING, one millisecond early and at the deadline (E9 with
3000 ms); ARMED, then transmitted at 100 and timed out at 3000 after the arm. -/
theorem witness_TimeoutLaw :
    (Inv (storedRequest (configured (-1) 3000 true)) ∧ 0 ≤ (storedRequest (configured (-1) 3000 true)).eng.cfg.timeoutMs ∧
      ∃ t u v v', Accepts 7 10 (storedRequest (configured (-1) 3000 true)) t ∧ Quiet 3 t ∧ core.run 3 t = .next u ∧
        u.eng.trk.state = .pending ∧ exec (.pePoll 3009) u = .next v ∧ exec (.pePoll 3010) u = .next v' ∧
        ((3009 : Nat) : Int) < (10 : Nat) + (storedRequest (configured (-1) 3000 true)).eng.cfg.timeoutMs ∧
        (10 : Nat) + (storedRequest (configured (-1) 3000 true)).eng.cfg.timeoutMs ≤ ((3010 : Nat) : Int)) ∧
    (Inv (storedRequest State.reset) ∧ ∃ t u v x, Accepts 7 10 (storedRequest State.reset) t ∧ Quiet 3 t ∧
        core.run 3 t = .next u ∧ u.eng.trk.state = .armed ∧ exec (.pePoll 100) u = .next v ∧ v.eng.trk.state = .pending ∧
        Quiet 0 v ∧ core.run 0 v = .next v ∧ exec (.pePoll 3010) v = .next x ∧
        (10 : Nat) + (storedRequest State.reset).eng.cfg.timeoutMs ≤ ((3010 : Nat) : Int)) := by
  have h1 : Inv (storedRequest (configured (-1) 3000 true)) := ⟨(inv_configured (-1) 3000 true).asm, Nat.le_refl _, (inv_configured (-1) 3000 true).trk,
    (inv_configured (-1) 3000 true).eng⟩
  have h2 : Inv (storedRequest State.reset) := ⟨inv_reset.asm, inv_reset.dl, inv_reset.trk, inv_reset.eng⟩
  exact ⟨⟨h1, by decide, _, _, _, _, accepts_of rfl rfl, quiet_pending rfl, rfl, rfl, rfl, rfl, by decide, by decide⟩,
    h2, _, _, _, _, accepts_of rfl rfl, quiet_reset rfl, rfl, rfl, rfl, rfl, trivial, rfl, rfl, by decide⟩

/-- P1, step 4 as a step: the poll at 100 makes the ARMED request PENDING and delivers nothing. -/
theorem witness_QuietStepsKeepTheRequest : ∃ t, (given (.command ⟨0x62, [.nat 100]⟩) (requested .armed [])).eng.trk.state ≠ .idle ∧
    step (given (.command ⟨0x62, [.nat 100]⟩) (requested .armed [])) = .next t ∧
    QuietStep (given (.command ⟨0x62, [.nat 100]⟩) (requested .armed [])) t :=
  ⟨_, by decide, rfl, quietStep_of rfl (by simp) fun ⟨_, _, h⟩ => nomatch h⟩

theorem inv_lastByteWaits (h : Config.cmdReply.getLsbD 7 = false) : Inv (lastByteWaits 0x80) where
  asm := assemblerInv_construct
  dl := Nat.le_refl _
  trk := trackerInv_construct ..
  eng :=
    { asm :=
        { whole := fun hr => by cases hr
          flags := fun hr => by cases hr
          partly := fun _ => ⟨Nat.le_refl _, rfl, rfl⟩
          framing := fun i hi => by
            match i with
            | 0 => exact ⟨_, rfl, by decide⟩
            | 1 => exact ⟨_, rfl, h⟩
            | 2 | 3 | 4 | 5 | 6 | 7 => exact ⟨_, rfl, by decide⟩
            | 8 => exact absurd hi (by decide) }
      notReady := rfl
      empty := fun hne => absurd rfl hne
      trk := (inv_requested .pending []).eng.trk
      mode := fun _ => rfl
      armed := fun ha => by cases ha
      pollDl := (inv_requested .pending []).eng.pollDl }

/-- A Value needs a reply that can be assembled, so the witness supposes of the OPEN parameter CMD_REPLY what R306 says it then
has: bit 7 clear. -/
theorem witness_ValueOutcomesAreInRangeAndFramed (h : Config.cmdReply.getLsbD 7 = false) : ∃ t, Inv (lastByteWaits 0x80) ∧
    exec (.pePoll 11) (lastByteWaits 0x80) = .next t ∧ t.resp = some (.poll true (some (.value 2047)) (some 7)) := by
  have hv := test_pePoll_value
  cases ht : exec (.pePoll 11) (lastByteWaits 0x80) with
  | next t =>
    rw [ht] at hv
    simp only [nextOf, Option.map_some, Option.some.injEq, Prod.mk.injEq] at hv
    exact ⟨t, inv_lastByteWaits h, rfl, hv.2⟩
  | fault f => rw [ht] at hv; cases hv
  | refused q => rw [ht] at hv; cases hv

theorem witness_NumericFormIsInjective : -16383 ≤ (16383 : I16).toInt ∧ (16383 : I16).toInt ≤ 16383 ∧
    -16383 ≤ (-16383 : I16).toInt ∧ (-16383 : I16).toInt ≤ 16383 ∧
    (∃ t, (requested .armed []).eng.trk.state ≠ .idle ∧ getCall 0x80 0x4D 0x02 0x00 11 (requested .armed []) = .next t) :=
  ⟨by decide, by decide, by decide, by decide, _, by decide, rfl⟩

theorem witness_GetForcesThenAsks :
    ((given (.getCall 0x80 0x4D 0x02 0x00 11) (requested .armed [])).eng.tLast ≤ 11 ∧
      (given (.getCall 0x80 0x4D 0x02 0x00 11) (requested .armed [])).eng.trk.state ≠ .idle) ∧
    ((given (.getCall 0x80 0x4D 0x01 0x00 0) State.reset).eng.tLast ≤ 0 ∧
      (given (.getCall 0x80 0x4D 0x01 0x00 0) State.reset).eng.trk.state = .idle) := by decide

theorem witness_GetPollsUntilReady : ∃ t, (given (.getPoll 3010) (requested .pending [])).inputs = [.getPoll 3010] ∧
    exec (.pePoll 3010) (requested .pending []) = .next t := ⟨_, rfl, rfl⟩

/-- P5. -/
theorem witness_RejectedGetReleasesTheArmedRequest :
    Inv (given (.getCall 0x80 0x4D 0x02 0x00 11) (requested .armed [])) ∧
    (given (.getCall 0x80 0x4D 0x02 0x00 11) (requested .armed [])).inputs = [.getCall 0x80 0x4D 0x02 0x00 11] ∧
    (given (.getCall 0x80 0x4D 0x02 0x00 11) (requested .armed [])).eng.tLast ≤ 11 ∧ 11 ≤ 12 ∧
    (given (.getCall 0x80 0x4D 0x02 0x00 11) (requested .armed [])).eng.trk.state = .armed :=
  ⟨inv_given (inv_requested ..) _, rfl, by decide, by decide, rfl⟩

/-- P2: rounds at 0, 1, 2999 and 3000. -/
theorem witness_GetEndsByItsDeadline : Inv State.reset ∧ State.reset.eng.trk.state = .idle ∧ State.reset.eng.tLast ≤ 0 ∧
    0 ≤ State.reset.eng.cfg.timeoutMs ∧
    List.Pairwise (· ≤ ·) (0 :: 0 :: [⟨[], 1⟩, ⟨[], 2999⟩, ⟨[], 3000⟩].map GetRound.now) ∧
    (∃ r ∈ ([⟨[], 1⟩, ⟨[], 2999⟩, ⟨[], 3000⟩] : List GetRound),
      ((0 : Nat) : Int) + State.reset.eng.cfg.timeoutMs ≤ (r.now : Int)) :=
  ⟨inv_reset, rfl, by decide, by decide, by decide, ⟨[], 3000⟩, by decide, by decide⟩

/-- Inputs of five kinds: an operation, bytes, a discard, a GET and construction. -/
def disciplined : State :=
  { State.reset with inputs :=
      [.command ⟨0x01, []⟩, .rxBytes [0x55], .rxDiscard 1, .getCall 0x80 0x4D 0x01 0x00 0, .construct ⟨none, none, none, 0, 0⟩] }

theorem witness_DisciplinedHostMeetsNoFault : Inv disciplined ∧ Disciplined disciplined.inputs disciplined := by
  refine ⟨⟨assemblerInv_construct, Nat.le_refl _, trackerInv_construct .., engineInv_construct _⟩, ?_⟩
  refine ⟨⟨.crcBegin, rfl, rfl⟩, fun t ht => ?_⟩
  cases ht
  refine ⟨trivial, fun t ht => ?_⟩
  cases ht
  refine ⟨trivial, fun t ht => ?_⟩
  cases ht
  refine ⟨Nat.le_refl _, fun t ht => ?_⟩
  exact ⟨trivial, fun _ _ => trivial⟩

theorem assemblerInv_bodyR1 : AssemblerInv (eightBytes bodyR1) where
  whole := fun hr => by cases hr
  flags := fun hr => by cases hr
  partly := fun _ => ⟨Nat.le_refl _, rfl, rfl⟩
  framing := fun i hi => by
    match i with
    | 0 | 1 | 2 | 3 | 4 | 5 | 6 | 7 => exact ⟨_, rfl, by decide⟩
    | 8 => exact absurd hi (by decide)

theorem ready_R1 : ((eightBytes bodyR1).feed 0x60).ready = true := by
  rw [Assembler.feed_complete rfl (by decide) rfl, Assembler.complete,
    show ((eightBytes bodyR1).append 0x60).matchesCRC = true by decide +kernel]
  rfl

/-- R1 with its first eight bytes held, where one byte makes ready; and R1 whole with none held. -/
theorem witness_OnlyACompleteFrameMakesReady :
    (∃ t, AssemblerInv almostR1.asm ∧ almostR1.asm.ready = false ∧ bodyR1.toList.length = almostR1.asm.len.val ∧
      (∀ i : Fin 9, i.val < almostR1.asm.len.val → almostR1.asm.buf[i] = bodyR1.toList[i.val]?) ∧
      execAll ([0x60].map .faFeed) almostR1 = .next t ∧ t.asm.ready = true) ∧
    (∃ t, AssemblerInv State.reset.asm ∧ State.reset.asm.ready = false ∧ ([] : List Byte).length = State.reset.asm.len.val ∧
      (∀ i : Fin 9, i.val < State.reset.asm.len.val → State.reset.asm.buf[i] = ([] : List Byte)[i.val]?) ∧
      execAll ((bodyR1.toList ++ [0x60]).map .faFeed) State.reset = .next t ∧ t.asm.ready = true) :=
  ⟨⟨_, assemblerInv_bodyR1, rfl, rfl, by decide, rfl, ready_R1⟩,
    _, assemblerInv_construct, rfl, rfl, by decide, rfl, ready_R1⟩

/-- T3's request with the number 0x81, pending, R1's first eight bytes in the engine's assembler and its trailer in RX. -/
def unanswerable : State :=
  { requested .pending [0x60] with
    eng := { (requested .pending []).eng with
      asm := eightBytes bodyR1
      trk := { trackerT3 .pending with payload := #v[some 0x00, some 0x4D, some 0x81] } } }

theorem inv_unanswerable : Inv unanswerable where
  asm := assemblerInv_construct
  dl := Nat.le_refl _
  trk := trackerInv_construct ..
  eng :=
    { asm := assemblerInv_bodyR1
      notReady := rfl
      empty := fun hne => absurd rfl hne
      trk := ⟨fun _ => ⟨⟨_, rfl⟩, ⟨_, rfl⟩⟩, ⟨rfl, Nat.le_refl _⟩⟩
      mode := fun _ => rfl
      armed := fun ha => by cases ha
      pollDl := ⟨rfl, Nat.zero_le _⟩ }

/-- Timed out at its deadline with the foreign frame unread; and ended in Error by that frame one millisecond before. -/
theorem witness_UnanswerableRequestsAreNeverAnswered : Inv unanswerable ∧
    unanswerable.eng.trk.wire? = some ⟨0x80, true, 0x00, 0x4D, 0x81⟩ ∧ Unanswerable ⟨0x80, true, 0x00, 0x4D, 0x81⟩ ∧
    (∃ t, exec (.pePoll 3010) unanswerable = .next t ∧ t.resp = some (.poll true (some .timedOut) (some 7))) ∧
    (∃ t, exec (.pePoll 3009) unanswerable = .next t ∧ t.resp = some (.poll true (some .error) (some 7))) := by
  refine ⟨inv_unanswerable, rfl, .inr (.inr (.inl (by decide))), ⟨_, rfl, rfl⟩, ?_⟩
  obtain ⟨res, u, hu⟩ := pollStep_completes inv_unanswerable.eng (show unanswerable.eng.tLast ≤ 3009 by decide)
  refine ⟨_, exec_pePoll_next.2 ⟨res, u, hu, rfl⟩, ?_⟩
  rw [pollStep_pending (by decide) rfl] at hu
  have hd : drain (eightBytes bodyR1) [0x60] = ((eightBytes bodyR1).feed 0x60, []) := by
    rw [drain, if_neg (by decide)]; rfl
  have hr : (drain (unanswerable.setEngLast 3009).eng.asm (unanswerable.setEngLast 3009).rx).1.ready = true := by
    show (drain (eightBytes bodyR1) [0x60]).1.ready = true
    rw [hd]; exact ready_R1
  rcases pollPending_ok hu with ⟨he, _⟩ | ⟨_, ⟨hn, _⟩ | ⟨_, f, r, hf, hw, ⟨hc, _⟩ | ⟨_, ht⟩⟩⟩
  · exact absurd he (by decide)
  · rw [hr] at hn; cases hn
  · have hw' : some (⟨0x80, true, 0x00, 0x4D, 0x81⟩ : WireRequest) = some r := hw
    obtain ⟨f', hf', _, _, hb⟩ := assemblerInv_frame (assemblerInv_drain inv_unanswerable.eng.asm unanswerable.rx) hr
    have : f' = f := Option.some.inj (hf'.symm.trans hf)
    have h7 := hb 7 (by decide)
    cases hw'
    simp only [correlates, Bool.and_eq_true, beq_iff_eq] at hc
    rw [this, show f[(7 : Fin 9)] = (0x81 : Byte) from hc.2] at h7
    exact absurd h7 (by decide)
  · obtain ⟨c, hc, rfl, _⟩ := terminal_ok.1 ht
    have : some (7 : Ctx) = some c := hc
    cases this
    rfl

end Sys2Proof.Machine
end

/-! PROOFS. 00_scope.md R14: the engine and the line on one side, the standalone units on the other, and no operation that
crosses over. Both obligations come from one commuting fact, `exec_engine_graft`: an engine operation does the same when the
standalone units, and all else that is not the engine or the line, are exchanged for another state's. -/

namespace Sys2Proof.Machine

/-- The engine and the line of `s`, on everything else of `u`: its standalone units, their `tLast`, its inputs and `resp`. -/
def State.graft (s u : State) : State := { u with eng := s.eng, tx := s.tx, rx := s.rx }

@[simp] theorem State.graft_eng (s u : State) : (s.graft u).eng = s.eng := rfl
@[simp] theorem State.graft_rx (s u : State) : (s.graft u).rx = s.rx := rfl
@[simp] theorem State.graft_self (s : State) : s.graft s = s := rfl

theorem State.graft_eq_right {s u : State} (he : u.eng = s.eng) (ht : u.tx = s.tx) (hr : u.rx = s.rx) : s.graft u = u := by
  simp [State.graft, ← he, ← ht, ← hr]

/-! ## The engine's internal steps commute with the exchange -/

section
variable {s t : State} {res : Option (PollOutcome × Ctx)} (u : State)

theorem transmitRequest_graft (h : transmitRequest s = .ok t) : transmitRequest (s.graft u) = .ok (t.graft u) := by
  obtain ⟨r, hw, ha, rfl⟩ := transmitRequest_ok.1 h
  exact transmitRequest_ok.2 ⟨r, hw, ha, rfl⟩

theorem terminal_graft {o : PollOutcome} (h : terminal o s = .ok (res, t)) :
    terminal o (s.graft u) = .ok (res, t.graft u) := by
  obtain ⟨c, hc, hres, rfl⟩ := terminal_ok.1 h
  exact terminal_ok.2 ⟨c, hc, hres, rfl⟩

/-- Step 3 of R224, once the ready assembler holds the frame `f` and the tracker the request `r`. -/
theorem correlateReply_eq {f : Vector Byte 9} {r : WireRequest} (hf : s.eng.asm.frame? = some f)
    (hr : s.eng.trk.wire? = some r) : correlateReply s =
      if correlates r f s.eng.asm.okCRC s.eng.asm.okSum then terminal (.value (decodeValue f[2] f[4] f[5])) s
      else terminal .error (s.setRx []) := by
  simp only [correlateReply, hf, hr, rxFlush_eq_nil]

theorem correlateReply_graft (h : correlateReply s = .ok (res, t)) :
    correlateReply (s.graft u) = .ok (res, t.graft u) := by
  cases hf : s.eng.asm.frame? with
  | none => simp [correlateReply, hf] at h
  | some f =>
    cases hr : s.eng.trk.wire? with
    | none => simp [correlateReply, hf, hr] at h
    | some r =>
      rw [correlateReply_eq hf hr] at h
      rw [correlateReply_eq (s := s.graft u) hf hr]
      split at h
      · exact (if_pos ‹_›).trans (terminal_graft u h)
      · exact (if_neg ‹_›).trans (terminal_graft u h)

theorem pollPending_graft {n : Nat} (h : pollPending n s = .ok (res, t)) :
    pollPending n (s.graft u) = .ok (res, t.graft u) := by
  unfold pollPending at h ⊢
  rw [State.graft_eng, State.graft_rx]
  split at h
  · rw [if_pos ‹_›]; exact terminal_graft u h
  · rw [if_neg ‹_›]
    dsimp only at h ⊢
    split at h
    · exact (if_pos ‹_›).trans (correlateReply_graft u h)
    · cases h; exact if_neg ‹_›

theorem pollArmed_graft {n : Nat} (h : pollArmed n s = .ok (res, t)) : pollArmed n (s.graft u) = .ok (res, t.graft u) := by
  obtain ⟨rfl, ⟨he, rfl⟩ | ⟨he, v, hv, rfl⟩⟩ := pollArmed_ok h
  · simp [pollArmed, he]
  · obtain ⟨r, _, _, rfl⟩ := transmitRequest_ok.1 hv
    simp only [pollArmed, State.graft_eng, he, ↓reduceIte, transmitRequest_graft u hv]
    rfl

theorem pollStep_graft {n : Nat} (h : pollStep n s = .ok (res, t)) : pollStep n (s.graft u) = .ok (res, t.graft u) := by
  obtain ⟨hn, ⟨hs, hp⟩ | ⟨hs, ha⟩ | ⟨hs, rfl, rfl⟩⟩ := pollStep_ok h
  · exact (pollStep_pending (s := s.graft u) hn hs).trans (pollPending_graft u hp)
  · exact (pollStep_armed (s := s.graft u) hn hs).trans (pollArmed_graft u ha)
  · exact pollStep_idle hn hs

theorem asyncGet_graft {a ty nu mo : Byte} {c : Ctx} {n : Nat} {acc : Bool} (h : asyncGet a ty nu mo c n s = .ok (acc, t)) :
    asyncGet a ty nu mo c n (s.graft u) = .ok (acc, t.graft u) := by
  obtain ⟨hn, ⟨hb, rfl, rfl⟩ | ⟨hi, rfl, hd, rfl⟩ | ⟨hi, rfl, hd, rfl⟩⟩ := asyncGet_ok.1 h
  · exact asyncGet_ok.2 ⟨hn, .inl ⟨hb, rfl, rfl⟩⟩
  · exact asyncGet_ok.2 ⟨hn, .inr (.inl ⟨hi, rfl, hd, rfl⟩)⟩
  · exact asyncGet_ok.2 ⟨hn, .inr (.inr ⟨hi, rfl, hd, rfl⟩)⟩

/-! ## The engine operations -/

/-- An engine operation that completes does the same to the engine and the line, with the same result, when all else of the
state is exchanged, and leaves what was put there as it is (R14, R47). -/
theorem exec_engine_graft {i : Instr} (hi : i.isEngine = true) (h : exec i s = .next t) :
    exec i (s.graft u) = .next { t.graft u with resp := t.resp } := by
  cases i with
  | peSet a ty nu v x =>
    cases exec_peSet_next.symm.trans h
    exact exec_peSet_next
  | peAsyncGet a ty nu mo c n =>
    obtain ⟨acc, v, hv, rfl⟩ := exec_peAsyncGet_next.1 h
    exact exec_peAsyncGet_next.2 ⟨acc, v.graft u, asyncGet_graft u hv, rfl⟩
  | pePoll n =>
    obtain ⟨res, v, hv, rfl⟩ := exec_pePoll_next.1 h
    exact exec_pePoll_next.2 ⟨res, v.graft u, pollStep_graft u hv, rfl⟩
  | _ => cases hi

/-- What an engine operation leaves as it was: the state after it is the state before it but for the engine, the line and
`resp`. -/
theorem exec_engine_frame {i : Instr} (hi : i.isEngine = true) (h : exec i s = .next t) :
    t = { t.graft s with resp := t.resp } := by
  have hs := exec_engine_graft s hi h
  rw [State.graft_self] at hs
  exact Host.Outcome.next.inj (h.symm.trans hs)

end

/-! ## The obligations -/

/-- Settles O42: a unit operation writes its own unit and `resp` alone; an engine operation's state after is the grafted one. -/
theorem unitsAndEngineAreSeparate : Obligations.UnitsAndEngineAreSeparate := by
  intro i s t h
  cases hi : i.isEngine with
  | false =>
    obtain ⟨_, _, _, _, _, _, _, rfl⟩ := exec_unit_next hi h
    exact ⟨fun _ => ⟨rfl, rfl, rfl⟩, nofun, rfl⟩
  | true =>
    rw [exec_engine_frame hi h]
    exact ⟨nofun, fun _ => ⟨rfl, rfl, rfl, rfl, rfl, rfl⟩, rfl⟩

/-- Settles O43: the second state is the first with all but the engine and the line exchanged. -/
theorem engineIgnoresTheStandaloneUnits : Obligations.EngineIgnoresTheStandaloneUnits := by
  intro i s s' t hi he ht hr h
  have hs' : exec i s' = .next { t.graft s' with resp := t.resp } := by
    simpa only [State.graft_eq_right he ht hr] using exec_engine_graft s' hi h
  exact ⟨_, hs', rfl, rfl, rfl, rfl⟩

end Sys2Proof.Machine

/-! PROOFS. 10_state.md R29, R38 to R42 and R291: the configuration and the block invariant. Each unit operation is taken by the
rule of the one unit it writes; PE_ASYNC_GET, PE_POLL and GET are taken through `EngineMove`, which says once what they can make
of the engine. -/

namespace Sys2Proof.Machine

/-! ## Deadlines and trackers keep their part of the invariant -/

section
variable {d : Int} {l n : Nat} {t : Tracker}

theorem deadlineInv_restart {x : Deadline} (h : DeadlineInv d l x) (n : Nat) : DeadlineInv d n (x.restart n) :=
  ⟨h.fixed, Nat.le_refl n⟩

theorem deadlineInv_expire {x : Deadline} (h : DeadlineInv d l x) : DeadlineInv d l x.expire := ⟨h.fixed, h.started⟩

/-- The stored request does not depend on the deadline. -/
theorem trackerInv_dl {x : Deadline} (h : TrackerInv d l t) (hx : DeadlineInv d n x) : TrackerInv d n { t with dl := x } :=
  ⟨h.stored, hx⟩

theorem trackerInv_pending (h : TrackerInv d l t) (ha : t.state = .armed) : TrackerInv d l { t with state := .pending } :=
  ⟨fun _ => h.stored (by simp [ha]), h.deadline⟩

/-- R39: in IDLE the stored fields owe nothing. -/
theorem trackerInv_clear (h : TrackerInv d l t) : TrackerInv d l t.clear :=
  ⟨fun hi => absurd rfl hi, h.deadline⟩

theorem trackerInv_arm (h : TrackerInv d l t) (hn : l ≤ n) (p : Vector Byte 3) (c : Ctx) (a : Byte) (m : Bool) :
    TrackerInv d n (t.arm p c a m n).2 := by
  by_cases hi : t.state = .idle
  · rw [Tracker.arm_idle hi]; exact trackerInv_armed h p c a m
  · rw [Tracker.arm_busy hi]; exact trackerInv_later h hn

end

/-! ## What a timed unit operation does when it completes (R73) -/

section
variable {s t : State} {n : Nat}

theorem exec_dlReset_next : exec (.dlReset n) s = .next t ↔
    s.dlLast ≤ n ∧ { s with dl := s.dl.restart n, dlLast := n, resp := some .done } = t := by
  by_cases hn : s.dlLast ≤ n
  · simp [exec, execDlReset, takeTime_of_le hn, hn]
  · simp [exec, execDlReset, takeTime_of_lt (Nat.lt_of_not_le hn), hn]

theorem exec_dlExpired_next : exec (.dlExpired n) s = .next t ↔
    s.dlLast ≤ n ∧ { s with dlLast := n, resp := some (.flag (s.dl.expired n)) } = t := by
  by_cases hn : s.dlLast ≤ n
  · simp [exec, execDlExpired, takeTime_of_le hn, hn]
  · simp [exec, execDlExpired, takeTime_of_lt (Nat.lt_of_not_le hn), hn]

theorem exec_rtArm_next {p : Vector Byte 3} {c : Ctx} {a : Byte} {m : Bool} : exec (.rtArm p c a m n) s = .next t ↔
    s.trkLast ≤ n ∧ { s with trk := (s.trk.arm p c a m n).2, trkLast := n
                             resp := some (.flag (s.trk.arm p c a m n).1) } = t := by
  by_cases hn : s.trkLast ≤ n
  · simp [exec, execRtArm, takeTime_of_le hn, hn]
  · simp [exec, execRtArm, takeTime_of_lt (Nat.lt_of_not_le hn), hn]

theorem exec_rtExpired_next : exec (.rtExpired n) s = .next t ↔
    s.trkLast ≤ n ∧ { s with trkLast := n, resp := some (.flag (s.trk.dl.expired n)) } = t := by
  by_cases hn : s.trkLast ≤ n
  · simp [exec, execRtExpired, takeTime_of_le hn, hn]
  · simp [exec, execRtExpired, takeTime_of_lt (Nat.lt_of_not_le hn), hn]

theorem exec_rtReset_next : exec (.rtReset n) s = .next t ↔
    s.trkLast ≤ n ∧ { s with trk := { s.trk with dl := s.trk.dl.restart n }, trkLast := n, resp := some .done } = t := by
  by_cases hn : s.trkLast ≤ n
  · simp [exec, execRtReset, takeTime_of_le hn, hn]
  · simp [exec, execRtReset, takeTime_of_lt (Nat.lt_of_not_le hn), hn]

/-- RT_MARK_SENT completes in ARMED alone (R202). -/
theorem exec_rtMarkSent_next : exec .rtMarkSent s = .next t ↔
    s.trk.state = .armed ∧ { s with trk := { s.trk with state := .pending }, resp := some .done } = t := by
  by_cases ha : s.trk.state = .armed
  · simp [exec, execRtMarkSent, Tracker.markSent_armed ha, ha]
  · simp [exec, execRtMarkSent, Tracker.markSent, ha]

end

/-! ## What PE_ASYNC_GET, PE_POLL and GET can make of the engine -/

/-- The engine after an engine operation at the time `n`, from the engine `e` before it. -/
inductive EngineMove (n : Nat) (e : Engine) : Engine → Prop where
  /-- the time is taken and nothing else is written (R73, R221, R231) -/
  | waits : EngineMove n e { e with tLast := n }
  /-- a request is accepted and waits for the poll deadline (R221) -/
  | arms (p : Vector Byte 3) (c : Ctx) (a : Byte) (hi : e.trk.state = .idle) (hd : e.pollDisabled = false) :
      EngineMove n e { e with tLast := n, trk := e.trk.armed p c a e.cfg.useCRC n }
  /-- a request is accepted and sent at once (R221, R222) -/
  | armsAndSends (p : Vector Byte 3) (c : Ctx) (a : Byte) (hi : e.trk.state = .idle) (hd : e.pollDisabled = true) :
      EngineMove n e { e with tLast := n, trk := { e.trk.armed p c a e.cfg.useCRC n with state := .pending } }
  /-- the armed request is sent and the poll deadline restarted (R230) -/
  | sends (ha : e.trk.state = .armed) (he : e.pollDl.expired n = true) :
      EngineMove n e { e with tLast := n, trk := { e.trk with state := .pending }, pollDl := e.pollDl.restart n }
  /-- bytes of RX are taken and complete no frame (R226) -/
  | collects (rx : List Byte) (hp : e.trk.state = .pending) (hr : (drain e.asm rx).1.ready = false) :
      EngineMove n e { e with tLast := n, asm := (drain e.asm rx).1 }
  /-- the request ends: the assembler, whatever it holds, is reset and the tracker cleared (R233) -/
  | releases (a : Assembler) (hp : e.trk.state = .pending) :
      EngineMove n e { e with tLast := n, asm := a.clear, trk := e.trk.clear }

theorem asyncGet_move {a ty nu mo : Byte} {c : Ctx} {n : Nat} {s t : State} {acc : Bool}
    (h : asyncGet a ty nu mo c n s = .ok (acc, t)) : s.eng.tLast ≤ n ∧ EngineMove n s.eng t.eng := by
  obtain ⟨hn, ⟨_, rfl, rfl⟩ | ⟨hi, rfl, hd, rfl⟩ | ⟨hi, rfl, hd, rfl⟩⟩ := asyncGet_ok.1 h
  · exact ⟨hn, .waits⟩
  · exact ⟨hn, .arms _ _ _ hi hd⟩
  · exact ⟨hn, .armsAndSends _ _ _ hi hd⟩

/-- Terminal (R233), on a state that holds the engine `e` at the time `n` with some assembler `a`. -/
theorem terminal_move {o : PollOutcome} {e : Engine} {a : Assembler} {n : Nat} {u t : State}
    {res : Option (PollOutcome × Ctx)} (hp : e.trk.state = .pending) (h : terminal o u = .ok (res, t))
    (hu : u.eng = { e with tLast := n, asm := a }) : EngineMove n e t.eng := by
  obtain ⟨_, _, _, rfl⟩ := terminal_ok.1 h
  simpa [State.setEngTrk, State.setEngAsm, hu] using .releases a hp

theorem pollPending_move {n : Nat} {s t : State} {res : Option (PollOutcome × Ctx)} (hp : s.eng.trk.state = .pending)
    (h : pollPending n (s.setEngLast n) = .ok (res, t)) : EngineMove n s.eng t.eng := by
  obtain ⟨_, ho⟩ | ⟨_, ⟨hr, _, rfl⟩ | ⟨_, _, _, _, _, ⟨_, ho⟩ | ⟨_, ho⟩⟩⟩ := pollPending_ok h
  · exact terminal_move hp ho rfl
  · exact .collects s.rx hp hr
  · exact terminal_move hp ho rfl
  · exact terminal_move hp ho rfl

theorem pollArmed_move {n : Nat} {s t : State} {res : Option (PollOutcome × Ctx)} (ha : s.eng.trk.state = .armed)
    (h : pollArmed n (s.setEngLast n) = .ok (res, t)) : EngineMove n s.eng t.eng := by
  obtain ⟨_, ⟨_, rfl⟩ | ⟨he, u, hu, rfl⟩⟩ := pollArmed_ok h
  · exact .waits
  · obtain ⟨_, _, _, rfl⟩ := transmitRequest_ok.1 hu
    exact .sends ha he

theorem pollStep_move {n : Nat} {s t : State} {res : Option (PollOutcome × Ctx)} (h : pollStep n s = .ok (res, t)) :
    s.eng.tLast ≤ n ∧ EngineMove n s.eng t.eng := by
  obtain ⟨hn, ⟨hp, h⟩ | ⟨ha, h⟩ | ⟨_, _, rfl⟩⟩ := pollStep_ok h
  · exact ⟨hn, pollPending_move hp h⟩
  · exact ⟨hn, pollArmed_move ha h⟩
  · exact ⟨hn, .waits⟩

/-- R14: all but the engine and the line is as it was. -/
theorem asyncGet_frame {a ty nu mo : Byte} {c : Ctx} {n : Nat} {s t : State} {acc : Bool}
    (h : asyncGet a ty nu mo c n s = .ok (acc, t)) : t = t.graft s := by
  have hg := asyncGet_graft s h
  rw [State.graft_self] at hg
  exact (Prod.mk.inj (Except.ok.inj (h.symm.trans hg))).2

theorem pollStep_frame {n : Nat} {s t : State} {res : Option (PollOutcome × Ctx)} (h : pollStep n s = .ok (res, t)) :
    t = t.graft s := by
  have hg := pollStep_graft s h
  rw [State.graft_self] at hg
  exact (Prod.mk.inj (Except.ok.inj (h.symm.trans hg))).2

theorem EngineMove.cfg_eq {n : Nat} {e e' : Engine} (h : EngineMove n e e') : e'.cfg = e.cfg := by
  cases h <;> rfl

/-- The assembler holds bytes in PENDING alone, since it fills only there and every end of a request resets it, and a request is
left in ARMED only while polling is enabled. -/
theorem EngineMove.keeps_inv {n : Nat} {e e' : Engine} (hm : EngineMove n e e') (h : EngineInv e) (hn : e.tLast ≤ n) :
    EngineInv e' := by
  have hl := engineInv_later h hn
  cases hm with
  | waits => exact hl
  | arms p c a hi hd =>
    exact { hl with
      empty := fun _ => h.empty (by simp [hi])
      trk := trackerInv_armed h.trk p c a _
      mode := fun _ => rfl
      armed := fun _ => hd }
  | armsAndSends p c a hi hd =>
    exact { hl with
      empty := fun hp => absurd rfl hp
      trk := trackerInv_pending (trackerInv_armed h.trk p c a _) rfl
      mode := fun _ => rfl
      armed := nofun }
  | sends ha _ =>
    exact { hl with
      empty := fun hp => absurd rfl hp
      trk := trackerInv_pending hl.trk ha
      mode := fun _ => h.mode (by simp [ha])
      armed := nofun
      pollDl := deadlineInv_restart h.pollDl n }
  | collects rx hp hr =>
    exact { hl with
      asm := assemblerInv_drain h.asm rx
      notReady := hr
      empty := fun hne => absurd hp hne }
  | releases a hp =>
    exact { hl with
      asm := assemblerInv_clear
      notReady := rfl
      empty := fun _ => rfl
      trk := trackerInv_clear hl.trk
      mode := fun hne => absurd rfl hne
      armed := nofun }

/-! ## The configuration -/

theorem exec_cfg {i : Instr} {s t : State} (h : exec i s = .next t) : t.eng.cfg = s.eng.cfg := by
  cases hi : i.isEngine with
  | false =>
    obtain ⟨_, _, _, _, _, _, _, rfl⟩ := exec_unit_next hi h
    rfl
  | true =>
    cases i with
    | peSet a ty nu v x =>
      cases exec_peSet_next.symm.trans h
      rfl
    | peAsyncGet a ty nu mo c n =>
      obtain ⟨_, u, hu, rfl⟩ := exec_peAsyncGet_next.1 h
      exact (asyncGet_move hu).2.cfg_eq
    | pePoll n =>
      obtain ⟨_, u, hu, rfl⟩ := exec_pePoll_next.1 h
      exact (pollStep_move hu).2.cfg_eq
    | _ => cases hi

/-! ## The block invariant -/

section
variable {s t : State}

theorem inv_construct (r : ResetInputs) (tx rx : List Byte) (ins : List Input) : Inv (State.construct r tx rx ins) :=
  ⟨assemblerInv_construct, Nat.le_refl _, trackerInv_construct .., engineInv_construct r⟩

/-- The invariant reads neither `C.crc` nor the streams, the waiting inputs or the result on the port. -/
theorem inv_outside (h : Inv s) (crc : Option U7) (tx rx : List Byte) (ins : List Input) (r : Option Resp) :
    Inv { s with crc := crc, tx := tx, rx := rx, inputs := ins, resp := r } :=
  ⟨h.asm, h.dl, h.trk, h.eng⟩

theorem inv_engineMove {n : Nat} (hs : Inv s) (hm : s.eng.tLast ≤ n ∧ EngineMove n s.eng t.eng) (hf : t = t.graft s) :
    Inv t := by
  obtain ⟨hn, hm⟩ := hm
  rw [hf]
  refine ⟨hs.asm, hs.dl, ?_, hm.keeps_inv hs.eng hn⟩
  rw [State.graft_eng, hm.cfg_eq]
  exact hs.trk

theorem inv_asyncGet {a ty nu mo : Byte} {c : Ctx} {n : Nat} {acc : Bool} (hs : Inv s)
    (h : asyncGet a ty nu mo c n s = .ok (acc, t)) : Inv t :=
  inv_engineMove hs (asyncGet_move h) (asyncGet_frame h)

theorem inv_pollStep {n : Nat} {res : Option (PollOutcome × Ctx)} (hs : Inv s) (h : pollStep n s = .ok (res, t)) : Inv t :=
  inv_engineMove hs (pollStep_move h) (pollStep_frame h)

/-- GET forces the poll deadline first (R238): its start and duration stay. -/
theorem inv_pollDl_expire (h : Inv s) : Inv (s.setPollDl s.eng.pollDl.expire) :=
  ⟨h.asm, h.dl, h.trk, { h.eng with pollDl := deadlineInv_expire h.eng.pollDl }⟩

/-- The operations of the generator, the codec and the builder, and the reads of the assembler and the tracker, write `C.crc`
and the result at most. -/
theorem exec_unit_outside {i : Instr} (hi : i.op ∈ [Op.crcBegin, .crcWrite, .crcEnd, .crcValue, .crcSpan, .vcEnc, .vcDec,
    .fbBuild, .faReady, .faView, .rtPending]) (h : exec i s = .next t) :
    ∃ crc r, t = { s with crc := crc, resp := some r } := by
  cases i with
  | crcBegin | crcSpan | vcEnc | vcDec | faReady | rtPending => exact ⟨_, _, (reply_eq_next.1 h).symm⟩
  | crcWrite | crcEnd | crcValue | fbBuild | faView =>
    simp only [exec, execCrcWrite, execCrcEnd, execCrcValue, execFbBuild, execFaView] at h
    split at h
    · exact ⟨_, _, (reply_eq_next.1 h).symm⟩
    · cases h
  | _ => simp [Instr.op] at hi

/-- Every operation that completes keeps the invariant. -/
theorem inv_exec {i : Instr} (hs : Inv s) (h : exec i s = .next t) : Inv t := by
  cases i with
  | crcBegin | crcWrite | crcEnd | crcValue | crcSpan | vcEnc | vcDec | fbBuild | faReady | faView | rtPending =>
    obtain ⟨crc, r, rfl⟩ := exec_unit_outside (by simp [Instr.op]) h
    exact inv_outside hs crc s.tx s.rx s.inputs _
  | faFeed b =>
    obtain rfl := reply_eq_next.1 h
    exact ⟨assemblerInv_feed hs.asm b, hs.dl, hs.trk, hs.eng⟩
  | faReset =>
    obtain rfl := reply_eq_next.1 h
    exact ⟨assemblerInv_clear, hs.dl, hs.trk, hs.eng⟩
  | dlReset n =>
    obtain ⟨_, rfl⟩ := exec_dlReset_next.1 h
    exact ⟨hs.asm, Nat.le_refl n, hs.trk, hs.eng⟩
  | dlExpire =>
    obtain rfl := reply_eq_next.1 h
    exact ⟨hs.asm, hs.dl, hs.trk, hs.eng⟩
  | dlExpired n =>
    obtain ⟨hn, rfl⟩ := exec_dlExpired_next.1 h
    exact ⟨hs.asm, Nat.le_trans hs.dl hn, hs.trk, hs.eng⟩
  | rtArm p c a m n =>
    obtain ⟨hn, rfl⟩ := exec_rtArm_next.1 h
    exact ⟨hs.asm, hs.dl, trackerInv_arm hs.trk hn p c a m, hs.eng⟩
  | rtMarkSent =>
    obtain ⟨ha, rfl⟩ := exec_rtMarkSent_next.1 h
    exact ⟨hs.asm, hs.dl, trackerInv_pending hs.trk ha, hs.eng⟩
  | rtClear =>
    obtain rfl := reply_eq_next.1 h
    exact ⟨hs.asm, hs.dl, trackerInv_clear hs.trk, hs.eng⟩
  | rtExpired n =>
    obtain ⟨hn, rfl⟩ := exec_rtExpired_next.1 h
    exact ⟨hs.asm, hs.dl, trackerInv_later hs.trk hn, hs.eng⟩
  | rtReset n =>
    obtain ⟨_, rfl⟩ := exec_rtReset_next.1 h
    exact ⟨hs.asm, hs.dl, trackerInv_dl hs.trk (deadlineInv_restart hs.trk.deadline n), hs.eng⟩
  | rtExpire =>
    obtain rfl := reply_eq_next.1 h
    exact ⟨hs.asm, hs.dl, trackerInv_dl hs.trk (deadlineInv_expire hs.trk.deadline), hs.eng⟩
  | peSet a ty nu v x =>
    cases exec_peSet_next.symm.trans h
    exact ⟨hs.asm, hs.dl, hs.trk, hs.eng⟩
  | peAsyncGet a ty nu mo c n =>
    obtain ⟨_, u, hu, rfl⟩ := exec_peAsyncGet_next.1 h
    exact inv_outside (inv_asyncGet hs hu) u.crc u.tx u.rx u.inputs _
  | pePoll n =>
    obtain ⟨_, u, hu, rfl⟩ := exec_pePoll_next.1 h
    exact inv_outside (inv_pollStep hs hu) u.crc u.tx u.rx u.inputs _

/-- Every input that is taken to its end keeps the invariant. -/
theorem inv_takeInput {i : Input} (hs : Inv s) (h : takeInput i s = .next t) : Inv t := by
  cases i with
  | command c =>
    obtain ⟨_, _, he⟩ := runCommand_next.1 h
    exact inv_exec hs he
  | rxBytes bytes =>
    cases h
    exact inv_outside hs s.crc s.tx _ s.inputs s.resp
  | rxDiscard count =>
    cases h
    exact inv_outside hs s.crc s.tx _ s.inputs s.resp
  | getCall a ty nu mo n =>
    obtain ⟨_, u, hu, rfl⟩ := getCall_next.1 h
    exact inv_outside (inv_asyncGet (inv_pollDl_expire hs) hu) u.crc u.tx u.rx u.inputs _
  | getPoll n =>
    obtain ⟨_, u, hu, rfl⟩ := getPoll_next.1 h
    exact inv_outside (inv_pollStep hs hu) u.crc u.tx u.rx u.inputs _
  | construct r =>
    cases h
    exact inv_construct ..

end

/-! ## The obligations -/

/-- Settles O4: the input is taken from a state that differs from `s` in its waiting inputs alone, and each kind of input keeps
the invariant. -/
theorem everyStepKeepsTheInvariant : Obligations.EveryStepKeepsTheInvariant := by
  intro s t hs h
  cases hin : s.inputs with
  | nil =>
    rw [step_nil hin] at h
    cases h
    exact hs
  | cons i rest =>
    rw [step_cons hin] at h
    exact inv_takeInput (inv_outside hs s.crc s.tx s.rx rest s.resp) h

/-- Settles O2: a unit operation does not write the engine, and no move of the engine writes its configuration. -/
theorem configurationIsLatchedAndNeverWritten : Obligations.ConfigurationIsLatchedAndNeverWritten := by
  refine ⟨fun r tx rx ins => ?_, fun _ _ _ => exec_cfg, fun e => by simp [Engine.pollDisabled], fun d now hd => ?_⟩
  · simp +contextual [Engine.construct, EngineCfg.latch, Config.defaultPollIntervalMs, Config.defaultTimeoutMs,
      Config.defaultUseCRC]
  · rw [← Bool.not_eq_true, Deadline.expired_iff]
    omega

/-- Settles O3: the invariant of a constructed block, of which reset is one. -/
theorem invariantHoldsAfterConstruction : Obligations.InvariantHoldsAfterConstruction :=
  ⟨inv_construct, inv_construct ..⟩

end Sys2Proof.Machine

/-! PROOFS. 20_memory.md, the clocks and the line: what an operation makes of the three `tLast` (R42, R73) and of TX and RX
(R60, R61, R63, R71, R75). The engine's operations are taken through their shared steps, the unit operations through the rule of
the one unit they write. -/

namespace Sys2Proof.Machine

section
variable {i : Instr} {s t : State} {n : Nat} {res : Option (PollOutcome × Ctx)}

/-! ## A time below the unit's `tLast` (R73) -/

theorem asyncGet_error_of_lt {a ty nu mo : Byte} {c : Ctx} (h : n < s.eng.tLast) :
    asyncGet a ty nu mo c n s = .error .timeNotMonotonic := by
  simp [asyncGet, takeTime_of_lt h]

theorem pollStep_error_of_lt (h : n < s.eng.tLast) : pollStep n s = .error .timeNotMonotonic := by
  simp [pollStep, takeTime_of_lt h]

/-- Every operation with a time input asks `takeTime` of its own unit before its own rule. -/
theorem exec_fault_of_lt_clock (hi : i.now? = some n) (hn : n < i.clock s) : exec i s = .fault .timeNotMonotonic := by
  cases i with
  | dlReset | dlExpired =>
    cases hi
    have hl : n < s.dlLast := hn
    simp only [exec, execDlReset, execDlExpired, takeTime_of_lt hl]
  | rtArm | rtExpired | rtReset =>
    cases hi
    have hl : n < s.trkLast := hn
    simp only [exec, execRtArm, execRtExpired, execRtReset, takeTime_of_lt hl]
  | peAsyncGet =>
    cases hi
    simp only [exec, execPeAsyncGet, asyncGet_error_of_lt hn]
  | pePoll =>
    cases hi
    simp only [exec, execPePoll, pollStep_error_of_lt hn]
  | _ => cases hi

/-! ## The three `tLast` after an operation that completes -/

theorem EngineMove.tLast_eq {e e' : Engine} (h : EngineMove n e e') : e'.tLast = n := by
  cases h <;> rfl

/-- An operation without a time input writes no `tLast`. -/
theorem exec_clocks_of_untimed (hi : i.now? = none) (h : exec i s = .next t) :
    t.dlLast = s.dlLast ∧ t.trkLast = s.trkLast ∧ t.eng.tLast = s.eng.tLast := by
  cases i with
  | crcBegin | crcWrite | crcEnd | crcValue | crcSpan | vcEnc | vcDec | fbBuild | faReady | faView | rtPending =>
    obtain ⟨_, _, rfl⟩ := exec_unit_outside (by simp [Instr.op]) h
    exact ⟨rfl, rfl, rfl⟩
  | faFeed | faReset | dlExpire | rtClear | rtExpire =>
    obtain rfl := reply_eq_next.1 h
    exact ⟨rfl, rfl, rfl⟩
  | rtMarkSent =>
    obtain ⟨_, rfl⟩ := exec_rtMarkSent_next.1 h
    exact ⟨rfl, rfl, rfl⟩
  | peSet =>
    cases exec_peSet_next.symm.trans h
    exact ⟨rfl, rfl, rfl⟩
  | _ => cases hi

/-- A move of the engine at the time `n` leaves `E.tLast` at `n` and the other two where they were. -/
theorem engineMove_clocks (hm : s.eng.tLast ≤ n ∧ EngineMove n s.eng t.eng) (hf : t = t.graft s) :
    t.eng.tLast = n ∧ s.dlLast ≤ t.dlLast ∧ s.trkLast ≤ t.trkLast ∧ s.eng.tLast ≤ t.eng.tLast := by
  obtain ⟨hn, hm⟩ := hm
  have ht := hm.tLast_eq
  rw [hf]
  exact ⟨ht, Nat.le_refl _, Nat.le_refl _, ht ▸ hn⟩

/-- An operation with a time input leaves its own unit's `tLast` there, which was no later, and lowers neither of the others. -/
theorem exec_clocks_of_timed (hi : i.now? = some n) (h : exec i s = .next t) :
    i.clock t = n ∧ s.dlLast ≤ t.dlLast ∧ s.trkLast ≤ t.trkLast ∧ s.eng.tLast ≤ t.eng.tLast := by
  cases i with
  | dlReset =>
    cases hi
    obtain ⟨hn, rfl⟩ := exec_dlReset_next.1 h
    exact ⟨rfl, hn, Nat.le_refl _, Nat.le_refl _⟩
  | dlExpired =>
    cases hi
    obtain ⟨hn, rfl⟩ := exec_dlExpired_next.1 h
    exact ⟨rfl, hn, Nat.le_refl _, Nat.le_refl _⟩
  | rtArm =>
    cases hi
    obtain ⟨hn, rfl⟩ := exec_rtArm_next.1 h
    exact ⟨rfl, Nat.le_refl _, hn, Nat.le_refl _⟩
  | rtExpired =>
    cases hi
    obtain ⟨hn, rfl⟩ := exec_rtExpired_next.1 h
    exact ⟨rfl, Nat.le_refl _, hn, Nat.le_refl _⟩
  | rtReset =>
    cases hi
    obtain ⟨hn, rfl⟩ := exec_rtReset_next.1 h
    exact ⟨rfl, Nat.le_refl _, hn, Nat.le_refl _⟩
  | peAsyncGet =>
    cases hi
    obtain ⟨_, u, hu, rfl⟩ := exec_peAsyncGet_next.1 h
    exact engineMove_clocks (t := u) (asyncGet_move hu) (asyncGet_frame hu)
  | pePoll =>
    cases hi
    obtain ⟨_, u, hu, rfl⟩ := exec_pePoll_next.1 h
    exact engineMove_clocks (t := u) (pollStep_move hu) (pollStep_frame hu)
  | _ => cases hi

/-! ## TX and RX after the engine's shared steps -/

/-- RX loses at its head what the drain reads, and nothing else (R61, R226). -/
theorem drain_rest_suffix (a : Assembler) (rx : List Byte) : (drain a rx).2 <:+ rx := by
  obtain ⟨read, left, rfl, _, _, hd⟩ := drain_split a rx
  rw [hd]
  exact List.suffix_append read left

/-- Terminal touches neither stream (R233). -/
theorem terminal_line {o : PollOutcome} (h : terminal o s = .ok (res, t)) : t.tx = s.tx ∧ t.rx = s.rx := by
  obtain ⟨_, _, _, rfl⟩ := terminal_ok.1 h
  exact ⟨rfl, rfl⟩

/-- A transmission puts its frame at the end of TX and reads nothing (R222). -/
theorem transmitRequest_line (h : transmitRequest s = .ok t) : s.tx <+: t.tx ∧ t.rx = s.rx := by
  obtain ⟨_, _, _, rfl⟩ := transmitRequest_ok.1 h
  exact ⟨List.prefix_append .., rfl⟩

theorem asyncGet_line {a ty nu mo : Byte} {c : Ctx} {acc : Bool} (h : asyncGet a ty nu mo c n s = .ok (acc, t)) :
    s.tx <+: t.tx ∧ t.rx = s.rx := by
  obtain ⟨_, ⟨_, _, rfl⟩ | ⟨_, _, _, rfl⟩ | ⟨_, _, _, rfl⟩⟩ := asyncGet_ok.1 h
  · exact ⟨List.prefix_refl _, rfl⟩
  · exact ⟨List.prefix_refl _, rfl⟩
  · exact ⟨List.prefix_append .., rfl⟩

/-- A poll in PENDING transmits nothing; a timeout reads nothing, a poll without a reply and a matching reply leave the rest of
the drain, and a mismatch leaves nothing (R225, R226, R228, R229). -/
theorem pollPending_line (h : pollPending n s = .ok (res, t)) : t.tx = s.tx ∧ t.rx <:+ s.rx := by
  obtain ⟨_, ho⟩ | ⟨_, ⟨_, _, rfl⟩ | ⟨_, _, _, _, _, ⟨_, ho⟩ | ⟨_, ho⟩⟩⟩ := pollPending_ok h
  · obtain ⟨htx, hrx⟩ := terminal_line ho
    exact ⟨htx, hrx ▸ List.suffix_refl _⟩
  · exact ⟨rfl, drain_rest_suffix ..⟩
  · obtain ⟨htx, hrx⟩ := terminal_line ho
    exact ⟨htx, hrx ▸ drain_rest_suffix ..⟩
  · obtain ⟨htx, hrx⟩ := terminal_line ho
    exact ⟨htx, hrx ▸ List.nil_suffix⟩

theorem pollArmed_line (h : pollArmed n s = .ok (res, t)) : s.tx <+: t.tx ∧ t.rx = s.rx := by
  obtain ⟨_, ⟨_, rfl⟩ | ⟨_, u, hu, rfl⟩⟩ := pollArmed_ok h
  · exact ⟨List.prefix_refl _, rfl⟩
  · exact transmitRequest_line (t := u) hu

theorem pollStep_line (h : pollStep n s = .ok (res, t)) :
    s.tx <+: t.tx ∧ t.rx <:+ s.rx ∧ (t.rx ≠ s.rx → s.eng.trk.state = .pending) := by
  obtain ⟨_, ⟨hp, h⟩ | ⟨_, h⟩ | ⟨_, _, rfl⟩⟩ := pollStep_ok h
  · obtain ⟨htx, hrx⟩ := pollPending_line h
    exact ⟨htx ▸ List.prefix_refl _, hrx, fun _ => hp⟩
  · obtain ⟨htx, hrx⟩ := pollArmed_line h
    exact ⟨htx, hrx ▸ List.suffix_refl _, fun hne => absurd hrx hne⟩
  · exact ⟨List.prefix_refl _, List.suffix_refl _, fun hne => absurd rfl hne⟩

/-- The engine operations: TX grows at its end, and RX is read by a PE_POLL in PENDING alone. -/
theorem exec_engine_line (hi : i.isEngine = true) (h : exec i s = .next t) :
    s.tx <+: t.tx ∧ t.rx <:+ s.rx ∧ (t.rx ≠ s.rx → (∃ now, i = .pePoll now) ∧ s.eng.trk.state = .pending) := by
  cases i with
  | peSet =>
    cases exec_peSet_next.symm.trans h
    exact ⟨List.prefix_append .., List.suffix_refl _, fun hne => absurd rfl hne⟩
  | peAsyncGet =>
    obtain ⟨_, _, hu, rfl⟩ := exec_peAsyncGet_next.1 h
    obtain ⟨htx, hrx⟩ := asyncGet_line hu
    exact ⟨htx, hrx ▸ List.suffix_refl _, fun hne => absurd hrx hne⟩
  | pePoll =>
    obtain ⟨_, _, hu, rfl⟩ := exec_pePoll_next.1 h
    obtain ⟨htx, hrx, hp⟩ := pollStep_line hu
    exact ⟨htx, hrx, fun hne => ⟨⟨_, rfl⟩, hp hne⟩⟩
  | _ => cases hi

end

/-! ## The obligations -/

/-- Settles O27: the check of R73 comes first, and an operation that completes moves its own unit's `tLast` forward or none. -/
theorem timeInputsAreMonotone : Obligations.TimeInputsAreMonotone := by
  refine ⟨fun _ _ _ => exec_fault_of_lt_clock, fun _ _ _ _ hi h => (exec_clocks_of_timed hi h).1, fun i s t h => ?_⟩
  cases hi : i.now? with
  | none =>
    obtain ⟨hdl, htrk, heng⟩ := exec_clocks_of_untimed hi h
    exact ⟨hdl.ge, htrk.ge, heng.ge⟩
  | some n => exact (exec_clocks_of_timed hi h).2

/-- Settles O44: the units are off the line (R14), and each engine operation keeps to its end of each stream. -/
theorem streamsAreUsedOnlyAsOwned : Obligations.StreamsAreUsedOnlyAsOwned := by
  intro i s t h
  cases hi : i.isEngine with
  | false =>
    obtain ⟨_, htx, hrx⟩ := (unitsAndEngineAreSeparate i s t h).1 hi
    exact ⟨htx ▸ List.prefix_refl _, hrx ▸ List.suffix_refl _, fun hne => absurd htx hne, fun hne => absurd hrx hne⟩
  | true =>
    obtain ⟨htx, hrx, hp⟩ := exec_engine_line hi h
    exact ⟨htx, hrx, fun _ => rfl, hp⟩

end Sys2Proof.Machine

/-! PROOFS. 30_encoding.md, the command port (R89 to R91, R93). `decode_eq_ok` says once what the decoder reads: a command is read
as `i` exactly when `i` is well formed and the command is `i`'s own. -/

namespace Sys2Proof

/-! ## The decoder and the encoder -/

/-- A well-formed instruction's operands are read back at its own operation: the family OperandRoundTrip, joined. -/
theorem decodeOperands_operands : (i : Instr) → i.wf = true → decodeOperands i.op i.operands = some i
  | .crcBegin => Laws.OperandRoundTrip.crcBegin
  | .crcWrite b => Laws.OperandRoundTrip.crcWrite b
  | .crcEnd => Laws.OperandRoundTrip.crcEnd
  | .crcValue => Laws.OperandRoundTrip.crcValue
  | .crcSpan n bytes => Laws.OperandRoundTrip.crcSpan n bytes
  | .vcEnc v x => Laws.OperandRoundTrip.vcEnc v x
  | .vcDec f w0 w1 => Laws.OperandRoundTrip.vcDec f w0 w1
  | .fbBuild a c u n p => Laws.OperandRoundTrip.fbBuild a c u n p
  | .faFeed b => Laws.OperandRoundTrip.faFeed b
  | .faReady => Laws.OperandRoundTrip.faReady
  | .faView => Laws.OperandRoundTrip.faView
  | .faReset => Laws.OperandRoundTrip.faReset
  | .dlReset now => Laws.OperandRoundTrip.dlReset now
  | .dlExpire => Laws.OperandRoundTrip.dlExpire
  | .dlExpired now => Laws.OperandRoundTrip.dlExpired now
  | .rtArm p c a m now => Laws.OperandRoundTrip.rtArm p c a m now
  | .rtMarkSent => Laws.OperandRoundTrip.rtMarkSent
  | .rtClear => Laws.OperandRoundTrip.rtClear
  | .rtPending => Laws.OperandRoundTrip.rtPending
  | .rtExpired now => Laws.OperandRoundTrip.rtExpired now
  | .rtReset now => Laws.OperandRoundTrip.rtReset now
  | .rtExpire => Laws.OperandRoundTrip.rtExpire
  | .peSet a t n v x => Laws.OperandRoundTrip.peSet a t n v x
  | .peAsyncGet a t n m c now => Laws.OperandRoundTrip.peAsyncGet a t n m c now
  | .pePoll now => Laws.OperandRoundTrip.pePoll now

/-- What is read at an operation is a well-formed instruction of that operation, and no operand is dropped. Only the two
operations with a byte sequence of a given length have a check to pass. -/
theorem decodeOperands_some {o : Op} {xs : List Operand} {i : Instr} (h : decodeOperands o xs = some i) :
    i.wf = true ∧ i.op = o ∧ i.operands = xs := by
  cases o with
  | crcSpan | fbBuild =>
    simp only [decodeOperands] at h
    split at h
    · obtain ⟨hlen, hi⟩ := Option.ite_none_right_eq_some.1 h
      cases hi
      exact ⟨hlen, rfl, rfl⟩
    · cases h
  | _ =>
    simp only [decodeOperands] at h
    split at h
    · cases h
      exact ⟨rfl, rfl, rfl⟩
    · cases h

/-- A command is read as `i` exactly when `i` is well formed and the command is `i`'s own. -/
theorem decode_eq_ok {c : Command} {i : Instr} : decode c = .ok i ↔ i.wf = true ∧ encode i = c := by
  rw [decode_ok]
  constructor
  · rintro ⟨o, hcode, hops⟩
    obtain ⟨hwf, rfl, hxs⟩ := decodeOperands_some hops
    exact ⟨hwf, congrArg₂ Command.mk (Op.code_of_ofCode hcode) hxs⟩
  · rintro ⟨hwf, rfl⟩
    exact ⟨i.op, Op.ofCode_code i.op, decodeOperands_operands i hwf⟩

theorem decode_encode {i : Instr} (h : i.wf = true) : decode (encode i) = .ok i := decode_eq_ok.2 ⟨h, rfl⟩

/-! ## Unassigned codes (R91) -/

/-- A code is unassigned exactly when it is in R91's list: each of the 25 codes of the table lies outside every range of the
list, and the ranges and the table leave no byte out. -/
theorem Op.ofCode_eq_none {b : Byte} : Op.ofCode b = none ↔
    (b.toNat = 0 ∨ (0x06 ≤ b.toNat ∧ b.toNat ≤ 0x0F) ∨ (0x12 ≤ b.toNat ∧ b.toNat ≤ 0x1F) ∨
      (0x21 ≤ b.toNat ∧ b.toNat ≤ 0x2F) ∨ (0x34 ≤ b.toNat ∧ b.toNat ≤ 0x3F) ∨ (0x43 ≤ b.toNat ∧ b.toNat ≤ 0x4F) ∨
      (0x57 ≤ b.toNat ∧ b.toNat ≤ 0x5F) ∨ 0x63 ≤ b.toNat) := by
  have hnone : Op.ofCode b = none ↔ ∀ o ∈ Op.all, o.code.toNat ≠ b.toNat := by
    simp [Op.ofCode, BitVec.toNat_inj]
  rw [hnone]
  simp only [Op.all, List.cons_append, List.nil_append, List.forall_mem_cons, Op.code, BitVec.reduceToNat,
    List.not_mem_nil, false_implies, implies_true, and_true]
  omega

theorem decode_unassigned {c : Command} (h : Op.ofCode c.op = none) : decode c = .error .unassignedOp := by
  simp [decode, h]

end Sys2Proof

namespace Sys2Proof.Machine

/-! ## A command on the port -/

section
variable {s : State} {c : Command} {rest : List Input} {i : Instr}

/-- A step on a command that decodes runs the decoded instruction on the state with the input taken (R72, R89). -/
theorem step_command_of_decode (h : s.inputs = .command c :: rest) (hd : decode c = .ok i) :
    step s = exec i { s with inputs := rest } := by
  rw [step_cons h]
  simp [takeInput, runCommand, hd]

/-- A step on an unassigned code faults, whatever the operands are (R91, R263). -/
theorem step_command_unassigned (h : s.inputs = .command c :: rest) (hc : Op.ofCode c.op = none) :
    step s = .fault .undefinedOp := by
  rw [step_cons h]
  simp [takeInput, runCommand, decode_unassigned hc]

/-- FB_BUILD faults on a payload over MAX_PAYLOAD (R142). -/
theorem exec_fbBuild_overflow {addr cmd : Byte} {u : Bool} {n : Nat} {payload : List Byte} (h : 7 < n) :
    exec (.fbBuild addr cmd u n payload) s = .fault .frameOverflow := by
  simp [exec, execFbBuild, buildFrame_overflow h]

end

/-! ## The obligations -/

/-- Settles O5: both directions of `decode_eq_ok`. -/
theorem decodeAndEncodeAgree : Obligations.DecodeAndEncodeAgree :=
  ⟨fun _ => decode_encode, fun _ _ => decode_eq_ok.1⟩

/-- Settles O6: the decoder looks at the code first, and a payload over 7 bytes is well formed, so FB_BUILD's own rule meets it. -/
theorem unassignedCodesFault : Obligations.UnassignedCodesFault :=
  ⟨fun _ => Op.ofCode_eq_none, fun _ _ _ => step_command_unassigned, fun _ _ _ _ _ _ hlen hn =>
    ⟨decode_eq_ok.2 ⟨beq_iff_eq.2 hlen, rfl⟩, exec_fbBuild_overflow hn⟩⟩

/-- Settles O7: the step on a decoded command, and `decode_encode` for the command of a well-formed instruction. -/
theorem stepRunsTheDecodedInstruction : Obligations.StepRunsTheDecodedInstruction :=
  ⟨fun _ _ _ _ => step_command_of_decode, fun _ _ _ h hwf => step_command_of_decode h (decode_encode hwf)⟩

/-- Settles O9: each command written out is the encoded form of the instruction named, and that instruction is well formed. -/
theorem writtenCommandsDecode : Obligations.WrittenCommandsDecode := by
  refine ⟨?_, ?_, ?_, ?_, ?_, ?_, ?_, ?_⟩ <;> exact decode_eq_ok.2 ⟨rfl, rfl⟩

end Sys2Proof.Machine

/-! PROOFS. 40_crc7.md, the CRC7 generator (R100 to R108). One shift loses nothing of a byte below 0x80, so by linearity
(`step8_xor`) a step keeps two different register values different; from that a single flipped bit is never lost (R108). -/

namespace Sys2Proof.Machine

/-! ## The register operations, one equation each (R101 to R105) -/

section
variable {s : State} {r : U7}

theorem State.readCrc_of_none (h : s.crc = none) : s.readCrc = .error .crcUninit := by
  simp [State.readCrc, h]

theorem State.readCrc_of_some (h : s.crc = some r) : s.readCrc = .ok r := by
  simp [State.readCrc, h]

theorem exec_crcBegin (s : State) : exec .crcBegin s = reply .done { s with crc := some Config.crcSeed } := rfl

theorem exec_crcWrite (b : Byte) (h : s.crc = some r) :
    exec (.crcWrite b) s = reply .done { s with crc := some (step8 r b) } := by
  simp [exec, execCrcWrite, State.readCrc_of_some h]

theorem exec_crcEnd (h : s.crc = some r) : exec .crcEnd s = reply .done { s with crc := some (r ^^^ Config.crcSeed) } := by
  simp [exec, execCrcEnd, State.readCrc_of_some h]

theorem exec_crcValue (h : s.crc = some r) : exec .crcValue s = reply (.code r) s := by
  simp [exec, execCrcValue, State.readCrc_of_some h]

theorem exec_crcSpan (n : Nat) (bytes : List Byte) (s : State) :
    exec (.crcSpan n bytes) s = reply (.code (crc7 bytes)) s := rfl

theorem exec_crc_uninit (b : Byte) (h : s.crc = none) : exec (.crcWrite b) s = .fault .crcUninit ∧
    exec .crcEnd s = .fault .crcUninit ∧ exec .crcValue s = .fault .crcUninit := by
  simp [exec, execCrcWrite, execCrcEnd, execCrcValue, State.readCrc_of_none h]

/-- A run goes on after an instruction that completes. -/
theorem execAll_cons {i : Instr} {is : List Instr} {t : State} (h : exec i s = .next t) :
    execAll (i :: is) s = execAll is t := by
  simp [execAll, h]

/-- CRC_WRITE of each byte, whatever instructions follow: the register has taken the bytes in order. -/
theorem execAll_crcWrites (is : List Instr) (bytes : List Byte) (h : s.crc = some r) : ∃ x,
    execAll (bytes.map .crcWrite ++ is) s = execAll is { s with crc := some (crcRun r bytes), resp := x } := by
  induction bytes generalizing s r with
  | nil => exact ⟨s.resp, by simp [crcRun, ← h]⟩
  | cons b bytes ih =>
    obtain ⟨x, hx⟩ := ih (s := { s with crc := some (step8 r b), resp := some .done }) (r := step8 r b) rfl
    exact ⟨x, (execAll_cons (exec_crcWrite b h)).trans hx⟩

end

/-- R105: CRC_BEGIN, CRC_WRITE of each byte, CRC_END and CRC_VALUE answer `crc7`, from any state. -/
theorem execAll_crcBegin_writes_end_value (bytes : List Byte) (s : State) :
    execAll ([.crcBegin] ++ bytes.map .crcWrite ++ [.crcEnd, .crcValue]) s =
      .next { s with crc := some (crc7 bytes), resp := some (.code (crc7 bytes)) } := by
  obtain ⟨x, hx⟩ := execAll_crcWrites (s := { s with crc := some Config.crcSeed, resp := some .done })
    [.crcEnd, .crcValue] bytes rfl
  rw [List.append_assoc, List.singleton_append, execAll_cons (exec_crcBegin s), hx,
    execAll_cons (exec_crcEnd rfl), execAll_cons (exec_crcValue rfl)]
  rfl

/-! ## A step stays within seven bits (R100, R106) -/

/-- One step bit by bit: the right shift, with the feedback where the low bit was set (R100). -/
theorem crcShift_getLsbD (c : Byte) (i : Nat) :
    (crcShift c).getLsbD i = (c.getLsbD (i + 1) ^^ (c.getLsbD 0 && Config.crcFeedback.getLsbD i)) := by
  unfold crcShift
  split
  · next h => rw [h]; simp [Nat.add_comm]
  · next h => rw [Bool.eq_false_of_not_eq_true h]; simp [Nat.add_comm]

theorem step8wide_toNat_lt (r : U7) (b : Byte) : (step8wide r b).toNat < 128 := by
  have h7 : (step8wide r b).msb = false := crcShifts_high 7 _
  have := BitVec.msb_eq_false_iff_two_mul_lt.1 h7
  omega

/-- The seven-bit register loses nothing of the loop's result (R106). -/
theorem step8_toNat (r : U7) (b : Byte) : (step8 r b).toNat = (step8wide r b).toNat := by
  rw [step8, BitVec.toNat_setWidth, Nat.mod_eq_of_lt (step8wide_toNat_lt r b)]

/-! ## A step keeps a difference (R108) -/

/-- Of a byte with bit 7 clear, a step shifts nothing out unseen: a low bit that is set comes back as bit 6 of the feedback. -/
theorem crcShift_ne_zero {c : Byte} (h7 : c.getLsbD 7 = false) (hc : c ≠ 0) : crcShift c ≠ 0 := by
  intro h
  have hbit (i : Nat) : (c.getLsbD (i + 1) ^^ (c.getLsbD 0 && Config.crcFeedback.getLsbD i)) = false := by
    rw [← crcShift_getLsbD, h]; exact BitVec.getLsbD_zero
  have h0 : c.getLsbD 0 = false := by
    have h6 := hbit 6
    rw [h7] at h6
    simpa [Config.crcFeedback] using h6
  rw [h0] at hbit
  refine hc (BitVec.eq_of_getLsbD_eq fun i _ => ?_)
  cases i with
  | zero => exact h0
  | succ i => simpa using hbit i

theorem crcShifts_ne_zero (k : Nat) {c : Byte} (h7 : c.getLsbD 7 = false) (hc : c ≠ 0) : crcShifts k c ≠ 0 := by
  induction k generalizing c with
  | zero => exact hc
  | succ k ih => exact ih (crcShift_high c) (crcShift_ne_zero h7 hc)

theorem step8_ne_zero {r : U7} {b : Byte} (h7 : b.getLsbD 7 = false) (h : r.setWidth 8 ^^^ b ≠ 0) : step8 r b ≠ 0 := by
  intro h0
  refine crcShifts_ne_zero 8 (by rw [BitVec.getLsbD_xor, h7]; simp) h (BitVec.eq_of_toNat_eq ?_)
  rw [← step8wide, ← step8_toNat, h0]
  rfl

/-- Two steps agree exactly when the step of the differences is 0. -/
theorem step8_eq_step8_iff {r r' : U7} {b b' : Byte} : step8 r b = step8 r' b' ↔ step8 (r ^^^ r') (b ^^^ b') = 0 := by
  rw [step8_xor]
  exact BitVec.xor_eq_zero_iff.symm

theorem step8_left_injective (b : Byte) : Function.Injective (step8 · b) := by
  intro r r' h
  by_contra hne
  have hd : step8 (r ^^^ r') 0 = 0 := by simpa using step8_eq_step8_iff.1 h
  refine step8_ne_zero rfl (fun h0 => hne (BitVec.xor_eq_zero_iff.1 ?_)) hd
  simpa using congrArg (BitVec.setWidth 7) h0

/-- A register that differs before the bytes `s` differs after them. -/
theorem crcRun_left_injective (s : List Byte) : Function.Injective (crcRun · s) := by
  induction s with
  | nil => exact Function.injective_id
  | cons b s ih => exact ih.comp (step8_left_injective b)

/-- The step of a byte with one bit set, from the register at 0. Bit 7 alone lies above the seven bits, and the first shift
takes it to bit 6. -/
theorem step8_zero_bit_ne_zero {k : Nat} (hk : k < 8) : step8 0 (1#8 <<< k) ≠ 0 := by
  obtain h | rfl : k < 7 ∨ k = 7 := by omega
  · refine step8_ne_zero (by simp; omega) fun h0 => ?_
    have hbit := congrArg (BitVec.getLsbD · k) h0
    simp [hk] at hbit
  · decide

/-- A flipped bit of a byte changes the register that the byte leaves. -/
theorem step8_flip_ne (r : U7) (b : Byte) {k : Nat} (hk : k < 8) : step8 r b ≠ step8 r (b ^^^ (1#8 <<< k)) := by
  rw [Ne, step8_eq_step8_iff, ← BitVec.xor_assoc, BitVec.xor_self, BitVec.xor_self, BitVec.zero_xor]
  exact step8_zero_bit_ne_zero hk

/-! ## The obligations -/

/-- Settles O13: the flipped bit changes the register at its byte, and the bytes after and the whitening keep the difference. -/
theorem crcDetectsEverySingleBitError : Obligations.CrcDetectsEverySingleBitError := by
  intro before after b k hk h
  simp only [crc7, crcRun_append, BitVec.xor_left_inj] at h
  exact step8_flip_ne _ b hk (crcRun_left_injective after h)

/-- Settles O11: a step leaves bit 7 clear, so the seven-bit register holds the whole result of the eight. -/
theorem crcStepStaysSevenBits : Obligations.CrcStepStaysSevenBits :=
  ⟨fun c i _ => crcShift_getLsbD c i, fun c k => crcShifts_high k c,
    fun r b => ⟨step8wide_toNat_lt r b, step8_toNat r b⟩, fun s => (crc7 s).isLt⟩

/-- Settles O12: by induction on the bytes, CRC_WRITE of each of them leaves `crcRun` in the register. -/
theorem crcSpanEqualsBeginWriteEndValue : Obligations.CrcSpanEqualsBeginWriteEndValue :=
  ⟨fun bytes => exec_crcSpan bytes.length bytes, execAll_crcBegin_writes_end_value, fun _ => rfl,
    by decide, by decide +kernel⟩

/-- Settles O10: the equations of the four operations where `C.crc` holds a value, and the fault where it holds ⊥. -/
theorem crcRegisterOperations : Obligations.CrcRegisterOperations :=
  ⟨exec_crcBegin, fun _ => exec_crc_uninit, fun _ b _ h => ⟨exec_crcWrite b h, exec_crcEnd h, exec_crcValue h⟩,
    fun _ => ⟨rfl, rfl, rfl, rfl⟩, by decide, by decide⟩

end Sys2Proof.Machine

/-! PROOFS. 41_value_codec.md, the signed-value codec (R120 to R124). The words the encoder answers are the two base-128 digits
of the magnitude, which the decoder's formula joins again (`word0_or_word1`); saturation keeps the sign, which goes to bit 0 of
the flags (`clamp_neg_iff`, `valueFlags_bit0_of_neg`). -/

namespace Sys2Proof.Machine

section
variable {s t : State} {v : Int} {x f w0 w1 : Byte}

/-! ## The operations, one rule each (R121, R122) -/

theorem exec_vcEnc (v : Int) (x : Byte) (s : State) :
    exec (.vcEnc v x) s = reply (.words (valueFlags v x) (word0 v) (word1 v)) s := rfl

theorem exec_vcDec (f w0 w1 : Byte) (s : State) : exec (.vcDec f w0 w1) s = reply (.value (decodeValue f w0 w1)) s := rfl

/-- What VC_ENC's answer is. -/
theorem words_of_exec_vcEnc (h : exec (.vcEnc v x) s = .next t) (hr : t.resp = some (.words f w0 w1)) :
    f = valueFlags v x ∧ w0 = word0 v ∧ w1 = word1 v := by
  rw [exec_vcEnc, reply_eq_next] at h
  subst h
  cases hr
  exact ⟨rfl, rfl, rfl⟩

/-- What VC_DEC's answer is. -/
theorem value_of_exec_vcDec {r : I16} (h : exec (.vcDec f w0 w1) s = .next t) (hr : t.resp = some (.value r)) :
    r = decodeValue f w0 w1 := by
  rw [exec_vcDec, reply_eq_next] at h
  subst h
  cases hr
  rfl

/-! ## Saturation and the magnitude (R120) -/

theorem clamp_of_mem (hl : -16383 ≤ v) (hu : v ≤ 16383) : clamp v = v := by
  rw [clamp_eq]; omega

theorem magnitude_of_mem (hl : -16383 ≤ v) (hu : v ≤ 16383) : magnitude v = v.natAbs := by
  rw [magnitude, clamp_of_mem hl hu]

theorem magnitude_of_saturated (h : v < -16383 ∨ 16383 < v) : magnitude v = 16383 := by
  rw [magnitude, clamp_eq]; omega

/-- Saturation keeps the sign. -/
theorem clamp_neg_iff : clamp v < 0 ↔ v < 0 := by
  rw [clamp_eq]; omega

theorem clamp_nonneg_iff : 0 ≤ clamp v ↔ 0 ≤ v := by
  rw [clamp_eq]; omega

/-! ## The flags byte (R80, R121) -/

theorem valueFlags_of_neg (x : Byte) (h : clamp v < 0) : valueFlags v x = x ||| 0x01 := if_pos h

theorem valueFlags_of_nonneg (x : Byte) (h : 0 ≤ clamp v) : valueFlags v x = x := if_neg (not_lt.2 h)

theorem valueFlags_bit0_of_neg (x : Byte) (h : clamp v < 0) : (valueFlags v x).getLsbD 0 = true := by
  rw [valueFlags_of_neg x h, BitVec.getLsbD_or]; simp

/-- The encoder writes no flag but bit 0 (R124). -/
theorem valueFlags_getLsbD (v : Int) (x : Byte) {i : Nat} (hi : 1 ≤ i) : (valueFlags v x).getLsbD i = x.getLsbD i := by
  obtain h | h := lt_or_ge (clamp v) 0
  · rw [valueFlags_of_neg x h, BitVec.getLsbD_or, show (0x01 : Byte) = 1#8 from rfl, BitVec.getLsbD_one]
    simp; omega
  · rw [valueFlags_of_nonneg x h]

/-! ## The two words are the digits of the magnitude (R81, R122) -/

/-- A word with bit 7 clear is a base-128 digit. -/
theorem toNat_lt_of_bit7 {w : Byte} (h : w.getLsbD 7 = false) : w.toNat < 128 := by
  have hmsb : w.msb = false := h
  have := BitVec.msb_eq_false_iff_two_mul_lt.1 hmsb
  omega

/-- Below 128 the low word does not overlap the high one, so the decoder's OR is a sum. -/
theorem or_mul_eq_add {a : Nat} (b : Nat) (h : a < 128) : a ||| b * 128 = a + 128 * b := by
  rw [Nat.or_comm, Nat.mul_comm, Nat.add_comm]
  exact (Nat.two_pow_add_eq_or_of_lt (i := 7) h b).symm

/-- Two digits decode to a value in the codec's range, whatever the flags are (R122). -/
theorem decodeValue_range (f : Byte) (h0 : w0.getLsbD 7 = false) (h1 : w1.getLsbD 7 = false) :
    -16383 ≤ (decodeValue f w0 w1).toInt ∧ (decodeValue f w0 w1).toInt ≤ 16383 := by
  have hl := toNat_lt_of_bit7 h0
  have hh := toNat_lt_of_bit7 h1
  rw [decodeValue_toInt, or_mul_eq_add _ hl]
  split <;> omega

theorem word0_or_word1 (v : Int) : (word0 v).toNat ||| (word1 v).toNat * 128 = magnitude v := by
  rw [word0_toNat, word1_toNat, or_mul_eq_add _ (Nat.mod_lt _ (by decide)), Nat.mod_add_div]

/-! ## Decoding an encoded value (R123) -/

/-- Where the value is not negative, the extra flags alone carry the sign. -/
theorem decodeValue_encoded_of_nonneg (x : Byte) (h : 0 ≤ clamp v) :
    (decodeValue (valueFlags v x) (word0 v) (word1 v)).toInt = if x.getLsbD 0 then -clamp v else clamp v := by
  rw [decodeValue_toInt, word0_or_word1, valueFlags_of_nonneg x h, magnitude, Int.natAbs_of_nonneg h]

theorem decodeValue_encoded_of_neg (x : Byte) (h : clamp v < 0) :
    (decodeValue (valueFlags v x) (word0 v) (word1 v)).toInt = clamp v := by
  rw [decodeValue_toInt, word0_or_word1, if_pos (valueFlags_bit0_of_neg x h), magnitude, Int.ofNat_natAbs_of_nonpos h.le,
    neg_neg]

/-- The round trip: with the extra sign bit clear the saturated value comes back, whatever its sign. -/
theorem decodeValue_encoded_of_even (v : Int) (hx : x.getLsbD 0 = false) :
    (decodeValue (valueFlags v x) (word0 v) (word1 v)).toInt = clamp v := by
  obtain h | h := lt_or_ge (clamp v) 0
  · exact decodeValue_encoded_of_neg x h
  · rw [decodeValue_encoded_of_nonneg x h, hx, if_neg Bool.false_ne_true]

end

/-! ## The obligations -/

/-- Settles O15: `decodeValue_toInt` for each sign, and `decodeValue_range` for words that are digits. -/
theorem decodeIsTheLiteralFormula : Obligations.DecodeIsTheLiteralFormula := by
  intro s f w0 w1
  refine ⟨decodeValue f w0 w1, exec_vcDec f w0 w1 s, rfl, fun hf => ?_, fun hf => ?_, decodeValue_range f⟩
  · rw [decodeValue_toInt, hf, if_neg Bool.false_ne_true]
  · rw [decodeValue_toInt, if_pos hf]

/-- Settles O16: the answers are `decodeValue` of the encoder's flags and words, by the sign and by bit 0 of the extra flags. -/
theorem codecRoundTrip : Obligations.CodecRoundTrip := by
  intro s t u v x f w0 w1 r henc hwords hdec hvalue
  obtain ⟨rfl, rfl, rfl⟩ := words_of_exec_vcEnc henc hwords
  obtain rfl := value_of_exec_vcDec hdec hvalue
  rw [← clamp_eq]
  refine ⟨decodeValue_encoded_of_even v, fun hx hl hu => ?_, fun hx h => ?_⟩
  · rw [decodeValue_encoded_of_even v hx, clamp_of_mem hl hu]
  · rw [decodeValue_encoded_of_nonneg x h, if_pos hx]

/-- Settles O17: the words are the digits of a magnitude of at most 16383, and the flags differ from the extra flags in bit 0
alone. -/
theorem encoderRange : Obligations.EncoderRange := by
  intro s t v x f w0 w1 h hr
  obtain ⟨rfl, rfl, rfl⟩ := words_of_exec_vcEnc h hr
  refine ⟨fun i hi _ => valueFlags_getLsbD v x hi, ?_⟩
  have hm := magnitude_le v
  rw [word0_toNat, word1_toNat]
  omega

/-- Settles O14: saturation keeps the sign, and the words are the digits of the magnitude, which is 16383 out of range. -/
theorem encodeSaturatesAndSplits : Obligations.EncodeSaturatesAndSplits := by
  intro s v x
  refine ⟨valueFlags v x, word0 v, word1 v, exec_vcEnc v x s, rfl, fun h => ?_, fun h => ?_, fun hl hu => ?_, fun h => ?_⟩
  · exact valueFlags_of_neg x (clamp_neg_iff.2 h)
  · exact valueFlags_of_nonneg x (clamp_nonneg_iff.2 h)
  · rw [word0_toNat, word1_toNat, magnitude_of_mem hl hu]
    exact ⟨rfl, rfl⟩
  · have hm := magnitude_of_saturated h
    exact ⟨BitVec.eq_of_toNat_eq (by rw [word0_toNat, hm]; rfl), BitVec.eq_of_toNat_eq (by rw [word1_toNat, hm]; rfl)⟩

end Sys2Proof.Machine

/-! PROOFS. 42_frame_builder.md, the frame builder (R140 to R144). The trailer is `trailer` of the mode over everything before
it; each mode has its code, and either is a body byte (`trailer_high`). -/

namespace Sys2Proof.Machine

/-- R143: the trailer in CRC mode. -/
theorem trailer_true (body : List Byte) : trailer true body = (crc7 body).setWidth 8 := rfl

/-- R144: the trailer in CHECKSUM mode. -/
theorem trailer_false (body : List Byte) : trailer false body = (Config.checksum body).setWidth 8 := rfl

/-- R140, R141: FB_BUILD of a payload within MAX_PAYLOAD; its other case is `exec_fbBuild_overflow`. -/
theorem exec_fbBuild_of_le {addr cmd : Byte} {u : Bool} {n : Nat} {payload : List Byte} (s : State) (h : n ≤ 7) :
    exec (.fbBuild addr cmd u n payload) s =
      reply (.frame (addr :: cmd :: payload ++ [trailer u (addr :: cmd :: payload)])) s := by
  simp [exec, execFbBuild, buildFrame_ok h]

/-! ## The obligation -/

/-- Settles O18: the two cases of FB_BUILD's bound, with `trailer` of the mode as the last byte. -/
theorem buildLaysOutTheFrame : Obligations.BuildLaysOutTheFrame := by
  intro s addr cmd u payload
  refine ⟨fun h => ⟨trailer u (addr :: cmd :: payload), exec_fbBuild_of_le s h, trailer_high u _, ?_, ?_⟩,
    exec_fbBuild_overflow, rfl⟩
  · rintro rfl
    exact trailer_true _
  · rintro rfl
    exact trailer_false _

end Sys2Proof.Machine

/-! PROOFS. 43_frame_assembler.md, the frame assembler (R160 to R169). `Assembler.Holds` says which bytes the cells below `A.len`
are. After any feed they are a block of all the bytes that came (`HeldWithin`), so nine bytes that make the assembler ready stand
in a row among them; and a start byte with the body bytes after it is held whatever was fed before (`Assembler.feedAll_frame`). -/

namespace Sys2Proof.Machine

section
variable {s : State} {a : Assembler} {f : Vector Byte 9} {b : Byte} {bytes held : List Byte}

/-! ## The operations, one rule each (R160, R166 to R168) -/

theorem exec_faFeed (b : Byte) (s : State) : exec (.faFeed b) s = .next { s with asm := s.asm.feed b, resp := some .done } := rfl

theorem exec_faView_none (h : s.asm.ready = false) : exec .faView s = reply (.view none) s := by
  simp [exec, execFaView, Assembler.view, h]

theorem exec_faView_frame (h : s.asm.ready = true) (hf : s.asm.frame? = some f) :
    exec .faView s = reply (.view (some (f, s.asm.okCRC, s.asm.okSum))) s := by
  simp [exec, execFaView, Assembler.view, h, hf]

/-! ## The trailer check on nine cells (R165) -/

theorem toList_eq_cells (f : Vector Byte 9) :
    f.toList = (f[0] :: [f[1], f[2], f[3], f[4], f[5], f[6], f[7]]) ++ [f[8]] := by
  refine List.ext_getElem (by simp) fun i hi _ => ?_
  simp only [Vector.length_toList] at hi
  rw [Vector.getElem_toList]
  match i, hi with
  | 0, _ | 1, _ | 2, _ | 3, _ | 4, _ | 5, _ | 6, _ | 7, _ | 8, _ => rfl

theorem take_eight_eq_cells (f : Vector Byte 9) : f.toList.take 8 = f[0] :: [f[1], f[2], f[3], f[4], f[5], f[6], f[7]] := by
  rw [toList_eq_cells]
  rfl

theorem take_eight_append (f : Vector Byte 9) : f.toList.take 8 ++ [f[8]] = f.toList := by
  rw [take_eight_eq_cells, toList_eq_cells]

theorem Assembler.body?_of_cells (h : ∀ i : Fin 9, a.buf[i] = some f[i]) : a.body? = some (f.toList.take 8) := by
  rw [take_eight_eq_cells]
  exact Assembler.body?_eq_some (h 0) (h 1) (h 2) (h 3) (h 4) (h 5) (h 6) (h 7)

theorem Assembler.matchesCRC_iff (h : ∀ i : Fin 9, a.buf[i] = some f[i]) :
    a.matchesCRC = true ↔ f[8] = (crc7 (f.toList.take 8)).setWidth 8 := by
  have h8 : a.buf[8] = some f[8] := h 8
  simp only [Assembler.matchesCRC, Assembler.body?_of_cells h, h8, beq_iff_eq, trailer_true]

theorem Assembler.matchesSum_iff (h : ∀ i : Fin 9, a.buf[i] = some f[i]) :
    a.matchesSum = true ↔ f[8] = (Config.checksum (f.toList.take 8)).setWidth 8 := by
  have h8 : a.buf[8] = some f[8] := h 8
  simp only [Assembler.matchesSum, Assembler.body?_of_cells h, h8, beq_iff_eq, trailer_false]

/-- The check touches no cell. -/
@[simp] theorem Assembler.complete_buf (a : Assembler) : a.complete.buf = a.buf := by
  unfold Assembler.complete; split <;> rfl

theorem Assembler.complete_of_match (h : a.matchesCRC = true ∨ a.matchesSum = true) :
    a.complete = { a with okCRC := a.matchesCRC, okSum := a.matchesSum, ready := true } := by
  rcases a.complete_cases with ⟨_, he⟩ | ⟨hc, hs, _⟩
  · exact he
  · simp [hc, hs] at h

/-! ## The bytes held (R162, R164) -/

/-- The cells below `A.len` hold exactly the bytes of `held`. -/
structure Assembler.Holds (a : Assembler) (held : List Byte) : Prop where
  length : held.length = a.len.val
  cell   : ∀ i : Fin 9, i.val < a.len.val → a.buf[i] = held[i.val]?

theorem Assembler.holds_nil (h : a.len.val = 0) : a.Holds [] :=
  ⟨h.symm, fun i hi => absurd hi (by omega)⟩

theorem Assembler.holds_start (b : Byte) (a : Assembler) : (a.start b).Holds [b] := by
  refine ⟨rfl, fun i hi => ?_⟩
  have hi0 : i.val = 0 := Nat.lt_one_iff.1 hi
  rw [Assembler.start_cell, if_pos hi0, hi0]
  rfl

theorem Assembler.Holds.append (h : a.Holds held) (hl : a.len.val ≤ 8) (b : Byte) : (a.append b).Holds (held ++ [b]) := by
  have hlen := Assembler.append_len (b := b) hl
  refine ⟨by rw [List.length_append, h.length, hlen]; rfl, fun i hi => ?_⟩
  rw [Assembler.append_cell]
  split
  · next he => rw [he, ← h.length, List.getElem?_concat_length]
  · next hne =>
    rw [h.cell i (by omega), List.getElem?_append_left (by rw [h.length]; omega)]

/-- Nine bytes held are the nine cells. -/
theorem Assembler.Holds.cells (h : a.Holds f.toList) (i : Fin 9) : a.buf[i] = some f[i] := by
  rw [h.cell i (by rw [← h.length, Vector.length_toList]; exact i.isLt)]
  simp

theorem Assembler.Holds.eq_toList (h : a.Holds held) (hl : a.len.val = 9) (hf : ∀ i : Fin 9, a.buf[i] = some f[i]) :
    held = f.toList := by
  refine List.ext_getElem (by rw [h.length, hl, Vector.length_toList]) fun i hi _ => ?_
  have hi9 : i < 9 := by rwa [h.length, hl] at hi
  have hc := (h.cell ⟨i, hi9⟩ (by rw [hl]; exact hi9)).symm.trans (hf ⟨i, hi9⟩)
  rw [List.getElem?_eq_getElem hi] at hc
  simpa using hc

/-! ## Resynchronization (R169's first sentence) -/

/-- Body bytes short of the ninth are appended to the bytes held. -/
theorem Assembler.Holds.feedAll_body (h : a.Holds held) (hr : a.ready = false) (h1 : 1 ≤ held.length)
    (hl : held.length + bytes.length ≤ 8) (hb : ∀ b ∈ bytes, b.getLsbD 7 = false) :
    (feedAll bytes a).Holds (held ++ bytes) ∧ (feedAll bytes a).ready = false := by
  induction bytes generalizing a held with
  | nil => simpa using ⟨h, hr⟩
  | cons b rest ih =>
    obtain ⟨hb0, hrest⟩ := List.forall_mem_cons.1 hb
    have hlen := h.length
    simp only [List.length_cons] at hl
    rw [feedAll_cons, Assembler.feed_append hr hb0 (by omega) (by omega), List.append_cons]
    exact ih (h.append (by omega) b) hr (by simp) (by simp; omega) hrest

/-- With a frame's first eight bytes held, its trailer completes it. -/
theorem Assembler.Holds.feed_trailer (h : a.Holds (f.toList.take 8)) (hr : a.ready = false) (h8 : f[8].getLsbD 7 = false)
    (htrailer : f[8] = (crc7 (f.toList.take 8)).setWidth 8 ∨ f[8] = (Config.checksum (f.toList.take 8)).setWidth 8) :
    (a.feed f[8]).ready = true ∧ (a.feed f[8]).Holds f.toList := by
  have hl : a.len.val = 8 := by rw [← h.length, take_eight_eq_cells]; rfl
  have h9 : (a.append f[8]).Holds f.toList := take_eight_append f ▸ h.append hl.le f[8]
  rw [Assembler.feed_complete hr h8 hl,
    Assembler.complete_of_match (htrailer.imp (Assembler.matchesCRC_iff h9.cells).2 (Assembler.matchesSum_iff h9.cells).2)]
  exact ⟨rfl, h9.length, h9.cell⟩

/-- Whatever an assembler that is not ready holds, a complete frame makes it ready and is then held. -/
theorem Assembler.feedAll_frame (hr : a.ready = false) (h0 : f[0].getLsbD 7 = true)
    (hbody : ∀ i : Fin 9, i.val ≠ 0 → f[i].getLsbD 7 = false)
    (htrailer : f[8] = (crc7 (f.toList.take 8)).setWidth 8 ∨ f[8] = (Config.checksum (f.toList.take 8)).setWidth 8) :
    (feedAll f.toList a).ready = true ∧ (feedAll f.toList a).Holds f.toList := by
  have hlow : ∀ b ∈ [f[1], f[2], f[3], f[4], f[5], f[6], f[7]], b.getLsbD 7 = false := by
    simpa using ⟨hbody 1 (by decide), hbody 2 (by decide), hbody 3 (by decide), hbody 4 (by decide), hbody 5 (by decide),
      hbody 6 (by decide), hbody 7 (by decide)⟩
  obtain ⟨h8, hr8⟩ : (feedAll (f.toList.take 8) a).Holds (f.toList.take 8) ∧
      (feedAll (f.toList.take 8) a).ready = false := by
    rw [take_eight_eq_cells, feedAll_cons, Assembler.feed_start hr h0]
    exact (Assembler.holds_start f[0] a).feedAll_body hr (by simp) (by simp) hlow
  have hfeed : feedAll f.toList a = (feedAll (f.toList.take 8) a).feed f[8] := by
    rw [← feedAll_nil (Assembler.feed _ _), ← feedAll_cons, ← feedAll_append, take_eight_append]
  rw [hfeed]
  exact h8.feed_trailer hr8 (hbody 8 (by decide)) htrailer

/-! ## Where the held bytes come from (R169's second sentence) -/

/-- The bytes held are a block of `input`, and its last one while the assembler is not ready. -/
def Assembler.HeldWithin (a : Assembler) (input : List Byte) : Prop :=
  ∃ before held after, input = before ++ held ++ after ∧ a.Holds held ∧ (a.ready = false → after = [])

theorem Assembler.HeldWithin.feed {input : List Byte} (hinv : AssemblerInv a) (h : a.HeldWithin input) (b : Byte) :
    (a.feed b).HeldWithin (input ++ [b]) := by
  obtain ⟨before, held, after, rfl, hheld, hafter⟩ := h
  cases hr : a.ready with
  | true =>
    rw [Assembler.feed_ready hr]
    exact ⟨before, held, after ++ [b], by simp, hheld, by simp [hr]⟩
  | false =>
    obtain rfl := hafter hr
    have hlen := (hinv.partly hr).1
    cases hb : b.getLsbD 7 with
    | true =>
      rw [Assembler.feed_start hr hb]
      exact ⟨before ++ held, [b], [], by simp, Assembler.holds_start b a, fun _ => rfl⟩
    | false =>
      have happ := hheld.append hlen b
      by_cases h0 : a.len.val = 0
      · rw [Assembler.feed_unsynced hr hb (Fin.ext h0)]
        exact ⟨before ++ held ++ [b], [], [], by simp, Assembler.holds_nil h0, fun _ => rfl⟩
      by_cases h8 : a.len.val = 8
      · rw [Assembler.feed_complete hr hb h8]
        rcases (a.append b).complete_cases with ⟨_, he⟩ | ⟨_, _, he⟩
        · rw [he]
          exact ⟨before, held ++ [b], [], by simp, ⟨happ.length, happ.cell⟩, fun _ => rfl⟩
        · rw [he]
          exact ⟨before ++ held ++ [b], [], [], by simp, Assembler.holds_nil rfl, fun _ => rfl⟩
      · rw [Assembler.feed_append hr hb (by omega) (by omega)]
        exact ⟨before, held ++ [b], [], by simp, happ, fun _ => rfl⟩

theorem Assembler.HeldWithin.feedAll {input : List Byte} (hinv : AssemblerInv a) (h : a.HeldWithin input) (bytes : List Byte) :
    (feedAll bytes a).HeldWithin (input ++ bytes) := by
  induction bytes generalizing a input with
  | nil => simpa using h
  | cons b rest ih =>
    rw [feedAll_cons, List.append_cons]
    exact ih (assemblerInv_feed hinv b) (h.feed hinv b)

end

/-! ## The obligations -/

/-- Settles O22: the leading bytes leave the assembler not ready, and from there the frame makes it ready. -/
theorem assemblerResynchronizes : Obligations.AssemblerResynchronizes := by
  intro s lead f hlead h0 hbody htrailer
  obtain ⟨_, hl⟩ := execAll_faFeed lead s
  have hr : (feedAll lead s.asm).ready = false := hlead lead _ ⟨[], List.append_nil lead⟩ hl
  obtain ⟨hready, hholds⟩ := Assembler.feedAll_frame hr h0 hbody htrailer
  obtain ⟨_, ht⟩ := execAll_faFeed (lead ++ f.toList) s
  rw [feedAll_append] at ht
  exact ⟨_, ht, hready, hholds.cells⟩

/-- Settles O56: the bytes held at the end are a block of those held and fed, and R29 makes of nine ready ones a frame whose
trailer matches. -/
theorem onlyACompleteFrameMakesReady : Obligations.OnlyACompleteFrameMakesReady := by
  intro s t held bytes hinv hr hlen hcell ht hready
  obtain ⟨_, hfed⟩ := execAll_faFeed bytes s
  obtain rfl := Host.Outcome.next.inj (hfed.symm.trans ht)
  have hinv' := assemblerInv_feedAll hinv bytes
  have hwithin : s.asm.HeldWithin held := ⟨[], held, [], by simp, ⟨hlen, hcell⟩, fun _ => rfl⟩
  obtain ⟨before, held', after, hsplit, hheld, _⟩ := hwithin.feedAll hinv bytes
  obtain ⟨f, _, hf, h0, hbody⟩ := assemblerInv_frame hinv' hready
  obtain ⟨hl, hok⟩ := hinv'.whole hready
  obtain ⟨hc, hs⟩ := hinv'.flags hready
  obtain rfl := hheld.eq_toList hl hf
  rw [hc, hs, Assembler.matchesCRC_iff hf, Assembler.matchesSum_iff hf] at hok
  exact ⟨before, after, f, hsplit, h0, hbody, hok, hf⟩

/-- Settles O20: the ninth byte is appended and the check of R165 compares it with the trailers of the eight. -/
theorem ninthByteChecksTheTrailer : Obligations.NinthByteChecksTheTrailer := by
  intro s b body hr hb hl hbody
  have hlen := Assembler.append_len (b := b) hl.le
  have hbuf (i : Fin 9) : (s.asm.append b).buf[i] = if i.val = 8 then some b else s.asm.buf[i] := by
    rw [Assembler.append_cell, hl]
  have hcells (i : Fin 9) : (s.asm.append b).buf[i] = some (body.push b)[i] := by
    rw [hbuf, Fin.getElem_fin, Fin.getElem_fin, Vector.getElem_push]
    split
    · next h => rw [dif_neg (by omega)]
    · next h => rw [dif_pos (by omega)]; exact hbody ⟨i.val, by omega⟩
  have htake : (body.push b).toList.take 8 = body.toList := by simp [Vector.toList_push]
  have hcrc := Assembler.matchesCRC_iff hcells
  have hsum := Assembler.matchesSum_iff hcells
  rw [htake, Vector.getElem_push_eq] at hcrc hsum
  refine ⟨(s.asm.append b).complete, by rw [exec_faFeed, Assembler.feed_complete hr hb hl], ?_, ?_, ?_⟩
  · rw [Assembler.complete_buf]
    exact hbuf
  · intro h
    rw [Assembler.complete_of_match (h.imp hcrc.2 hsum.2)]
    exact ⟨by rw [hlen, hl], rfl, hcrc, hsum⟩
  · intro hne hne'
    rcases (s.asm.append b).complete_cases with ⟨hm, _⟩ | ⟨_, _, he⟩
    · exact absurd (hm.imp hcrc.1 hsum.1) (not_or.2 ⟨hne, hne'⟩)
    · rw [he]
      exact ⟨rfl, hr, rfl, rfl⟩

/-- Settles O19: the cases of R161 to R164, in the rules' order. -/
theorem feedDropsStartsAndAppends : Obligations.FeedDropsStartsAndAppends := by
  intro s b
  rw [exec_faFeed]
  refine ⟨fun hr => ?_, fun hr hb => ?_, fun hr hb h0 => ?_, fun hr hb h1 h7 => ?_⟩
  · rw [Assembler.feed_ready hr]
  · refine ⟨s.asm.start b, by rw [Assembler.feed_start hr hb], rfl, Assembler.start_cell 0, fun i hi => ?_, hr, rfl, rfl⟩
    rw [Assembler.start_cell, if_neg hi]
  · rw [Assembler.feed_unsynced hr hb (Fin.ext h0)]
  · exact ⟨s.asm.append b, by rw [Assembler.feed_append hr hb h1 h7], Assembler.append_len (by omega),
      Assembler.append_cell, hr, rfl, rfl⟩

/-- Settles O21: FA_VIEW answers none or the nine cells, by the ready flag; FA_RESET is `Assembler.clear`. -/
theorem readyViewAndReset : Obligations.ReadyViewAndReset :=
  ⟨fun _ => rfl, fun _ => exec_faView_none, fun _ _ hr hf => exec_faView_frame hr (Assembler.frame?_of_cells hf),
    fun _ => rfl, rfl, rfl, rfl⟩

end Sys2Proof.Machine

/-! PROOFS. 44_deadline.md, the deadline timer (R180 to R185). `Deadline.expired_iff` says when a deadline has expired; that
expiry outlasts every operation but DL_RESET rests on `exec_dl_cases`, what an operation can make of the standalone deadline. -/

namespace Sys2Proof.Machine

section
variable {i : Instr} {s t : State} {d : Deadline} {n : Nat}

/-! ## The deadline -/

/-- R183: an infinite duration comes before the forced flag. -/
theorem Deadline.expired_of_infinite (n : Nat) (h : d.duration < 0) : d.expired n = false := if_pos h

/-- R182: forcing the expiry undoes none. -/
theorem Deadline.expired_expire (h : d.expired n = true) : d.expire.expired n = true := by
  obtain ⟨hdur, _⟩ := (Deadline.expired_iff n d).1 h
  exact (Deadline.expired_iff n d.expire).2 ⟨hdur, .inl rfl⟩

/-- R184: a counter of `w` bits, for a time no earlier than the start. -/
theorem elapsedFinite_eq_iff {w now start : Nat} : elapsedFinite w now start = now - start ↔ now - start < 2 ^ w :=
  Nat.mod_eq_iff_lt (Nat.two_pow_pos w).ne'

/-! ## The operations -/

theorem exec_dlExpire (s : State) : exec .dlExpire s = .next { s with dl := s.dl.expire, resp := some .done } := rfl

/-- R14: the engine's operations leave the standalone deadline alone; of the unit operations only DL_RESET and DL_EXPIRE write
it. -/
theorem exec_dl_cases (h : exec i s = .next t) (hi : ∀ now, i ≠ .dlReset now) : t.dl = s.dl ∨ t.dl = s.dl.expire := by
  cases i with
  | crcBegin | crcWrite | crcEnd | crcValue | crcSpan | vcEnc | vcDec | fbBuild | faReady | faView | rtPending =>
    obtain ⟨_, _, rfl⟩ := exec_unit_outside (by simp [Instr.op]) h
    exact .inl rfl
  | faFeed | faReset | rtClear | rtExpire =>
    obtain rfl := reply_eq_next.1 h
    exact .inl rfl
  | dlReset now => exact absurd rfl (hi now)
  | dlExpire =>
    obtain rfl := reply_eq_next.1 h
    exact .inr rfl
  | dlExpired =>
    obtain ⟨_, rfl⟩ := exec_dlExpired_next.1 h
    exact .inl rfl
  | rtArm =>
    obtain ⟨_, rfl⟩ := exec_rtArm_next.1 h
    exact .inl rfl
  | rtMarkSent =>
    obtain ⟨_, rfl⟩ := exec_rtMarkSent_next.1 h
    exact .inl rfl
  | rtExpired =>
    obtain ⟨_, rfl⟩ := exec_rtExpired_next.1 h
    exact .inl rfl
  | rtReset =>
    obtain ⟨_, rfl⟩ := exec_rtReset_next.1 h
    exact .inl rfl
  | peSet | peAsyncGet | pePoll =>
    rw [exec_engine_frame rfl h]
    exact .inl rfl

/-- R185: a completed operation other than DL_RESET undoes no expiry. -/
theorem exec_keeps_expired (h : exec i s = .next t) (hi : ∀ now, i ≠ .dlReset now) (he : s.dl.expired n = true) :
    t.dl.expired n = true := by
  rcases exec_dl_cases h hi with hd | hd
  · exact hd ▸ he
  · exact hd ▸ Deadline.expired_expire he

end

/-! ## The obligations -/

/-- Settles O25: monotone for a fixed deadline, and no operation but DL_RESET undoes an expiry. -/
theorem expiryIsMonotone : Obligations.ExpiryIsMonotone :=
  ⟨fun _ _ _ => Deadline.expired_mono,
    fun _ _ _ _ _ h hi hnm he => Deadline.expired_mono hnm (exec_keeps_expired h hi he)⟩

/-- Settles O23: each operation by its own rule, and the check of R73 before the two with a time. -/
theorem deadlineOperations : Obligations.DeadlineOperations :=
  ⟨fun _ _ hn => exec_dlReset_next.2 ⟨hn, rfl⟩, exec_dlExpire,
    fun s now hn => ⟨s.dl.expired now, exec_dlExpired_next.2 ⟨hn, rfl⟩, Deadline.expired_iff now s.dl⟩,
    fun _ _ hn => ⟨exec_fault_of_lt_clock rfl hn, exec_fault_of_lt_clock rfl hn⟩,
    fun _ => ⟨rfl, rfl, rfl⟩⟩

/-- Settles O24: DL_EXPIRE leaves the duration infinite, and so the read answers false. -/
theorem infiniteOverridesForcedExpiry : Obligations.InfiniteOverridesForcedExpiry := by
  intro s now hd hn
  have he : s.dl.expire.expired now = false := Deadline.expired_of_infinite now hd
  exact ⟨_, _, exec_dlExpire s, rfl, exec_dlExpired_next.2 ⟨hn, rfl⟩, congrArg (fun e => some (Resp.flag e)) he⟩

/-- Settles O26: with `now` no earlier than `start` the difference of the integers is that of the naturals. -/
theorem finiteCounterAgreesBelowItsRange : Obligations.FiniteCounterAgreesBelowItsRange := by
  intro w now start h
  rw [← Int.ofNat_sub h, Int.ofNat_inj]
  exact elapsedFinite_eq_iff

end Sys2Proof.Machine

/-! PROOFS. 45_request_tracker.md, the request tracker (R201 to R209). RT_ARM, RT_MARK_SENT and RT_CLEAR alone write more of the
standalone tracker than its deadline (`exec_trk_of_other`), which gives the transitions of R206 and from them the exclusion of
R209; the engine's tracker keeps its request through every shared step that delivers no outcome (`KeepsRequest`). -/

namespace Sys2Proof.Machine

section
variable {i : Instr} {is : List Instr} {s t : State} {n : Nat} {p : Vector Byte 3} {c : Ctx} {a : Byte} {m : Bool}

/-! ## The operations, one rule each (R201 to R208) -/

theorem exec_rtArm_idle (hn : s.trkLast ≤ n) (hi : s.trk.state = .idle) : exec (.rtArm p c a m n) s =
    .next { s with trk := s.trk.armed p c a m n, trkLast := n, resp := some (.flag true) } :=
  exec_rtArm_next.2 ⟨hn, by rw [Tracker.arm_idle hi]⟩

theorem exec_rtArm_busy (hn : s.trkLast ≤ n) (hb : s.trk.state ≠ .idle) :
    exec (.rtArm p c a m n) s = .next { s with trkLast := n, resp := some (.flag false) } :=
  exec_rtArm_next.2 ⟨hn, by rw [Tracker.arm_busy hb]⟩

/-- The two cases of an arm that completes, by the state it meets. -/
theorem exec_rtArm_cases (h : exec (.rtArm p c a m n) s = .next t) :
    (s.trk.state = .idle ∧ t.trk = s.trk.armed p c a m n ∧ t.resp = some (.flag true)) ∨
      (s.trk.state ≠ .idle ∧ t.trk = s.trk ∧ t.resp = some (.flag false)) := by
  obtain ⟨hn, _⟩ := exec_rtArm_next.1 h
  by_cases hi : s.trk.state = .idle
  · cases (exec_rtArm_idle hn hi).symm.trans h
    exact .inl ⟨hi, rfl, rfl⟩
  · cases (exec_rtArm_busy hn hi).symm.trans h
    exact .inr ⟨hi, rfl, rfl⟩

/-- The three cells hold the payload of the arm. -/
theorem Tracker.armed_payload (x : Tracker) (p : Vector Byte 3) (c : Ctx) (a : Byte) (m : Bool) (n : Nat) (j : Fin 3) :
    (x.armed p c a m n).payload[j] = some p[j] := by
  match j with
  | 0 | 1 | 2 => rfl

theorem exec_rtMarkSent_fault (h : s.trk.state ≠ .armed) : exec .rtMarkSent s = .fault .trackerState := by
  simp [exec, execRtMarkSent, Tracker.markSent, h]

theorem exec_rtClear (s : State) : exec .rtClear s = reply .done { s with trk := s.trk.clear } := rfl

theorem exec_rtPending (s : State) : exec .rtPending s = reply (.flag (decide (s.trk.state = .pending))) s := rfl

theorem exec_rtExpire (s : State) :
    exec .rtExpire s = reply .done { s with trk := { s.trk with dl := s.trk.dl.expire } } := rfl

/-! ## What an operation can make of the standalone tracker (R206, R209) -/

/-- R14: the engine's operations leave the standalone tracker alone; of the unit operations all but three write at most its
deadline. -/
theorem exec_trk_of_other (h : exec i s = .next t) (hi : i.op ∉ [Op.rtArm, .rtMarkSent, .rtClear]) :
    t.trk = { s.trk with dl := t.trk.dl } := by
  cases i with
  | crcBegin | crcWrite | crcEnd | crcValue | crcSpan | vcEnc | vcDec | fbBuild | faReady | faView | rtPending =>
    obtain ⟨_, _, rfl⟩ := exec_unit_outside (by simp [Instr.op]) h
    rfl
  | faFeed | faReset | dlExpire | rtExpire =>
    obtain rfl := reply_eq_next.1 h
    rfl
  | dlReset =>
    obtain ⟨_, rfl⟩ := exec_dlReset_next.1 h
    rfl
  | dlExpired =>
    obtain ⟨_, rfl⟩ := exec_dlExpired_next.1 h
    rfl
  | rtExpired =>
    obtain ⟨_, rfl⟩ := exec_rtExpired_next.1 h
    rfl
  | rtReset =>
    obtain ⟨_, rfl⟩ := exec_rtReset_next.1 h
    rfl
  | peSet | peAsyncGet | pePoll =>
    rw [exec_engine_frame rfl h]
    rfl
  | rtArm | rtMarkSent | rtClear => simp [Instr.op] at hi

/-- RT_CLEAR alone leads back to IDLE (R206). -/
theorem exec_keeps_busy (h : exec i s = .next t) (hi : i ≠ .rtClear) (hb : s.trk.state ≠ .idle) :
    t.trk.state ≠ .idle := by
  cases i with
  | rtArm =>
    obtain ⟨hidle, _⟩ | ⟨_, ht, _⟩ := exec_rtArm_cases h
    · exact absurd hidle hb
    · exact ht ▸ hb
  | rtMarkSent =>
    obtain ⟨_, rfl⟩ := exec_rtMarkSent_next.1 h
    exact nofun
  | rtClear => exact absurd rfl hi
  | _ =>
    rw [exec_trk_of_other h (by simp [Instr.op])]
    exact hb

theorem execAll_keeps_busy (h : execAll is s = .next t) (hi : .rtClear ∉ is) (hb : s.trk.state ≠ .idle) :
    t.trk.state ≠ .idle := by
  induction is generalizing s with
  | nil =>
    cases h
    exact hb
  | cons i is ih =>
    obtain ⟨hne, his⟩ := List.ne_and_not_mem_of_not_mem_cons hi
    cases hx : exec i s with
    | next v =>
      rw [execAll_cons hx] at h
      exact ih h his (exec_keeps_busy hx hne.symm hb)
    | fault | refused => simp [execAll, hx] at h

/-! ## The engine's request through the shared steps (R206, R221, R224) -/

/-- The tracker `y` holds the request of `x`: it is as it was, or its request has gone from ARMED to PENDING. -/
def KeepsRequest (x y : Tracker) : Prop := y = x ∨ (x.state = .armed ∧ y = { x with state := .pending })

/-- An ARMED request is sent, or it waits (R230, R231). -/
theorem pollArmed_keepsRequest {res : Option (PollOutcome × Ctx)} (h : pollArmed n s = .ok (res, t)) :
    KeepsRequest s.eng.trk t.eng.trk := by
  obtain ⟨_, ⟨_, rfl⟩ | ⟨_, _, hu, rfl⟩⟩ := pollArmed_ok h
  · exact .inl rfl
  · obtain ⟨_, _, ha, rfl⟩ := transmitRequest_ok.1 hu
    exact .inr ⟨ha, rfl⟩

/-- Terminal always delivers an outcome (R233). -/
theorem terminal_ne_none {o : PollOutcome} : terminal o s ≠ .ok (none, t) := by
  intro h
  obtain ⟨_, _, hres, _⟩ := terminal_ok.1 h
  cases hres

/-- A poll in PENDING without an outcome has only collected bytes (R226). -/
theorem pollPending_trk_of_none (h : pollPending n s = .ok (none, t)) : t.eng.trk = s.eng.trk := by
  obtain ⟨_, ho⟩ | ⟨_, ⟨_, _, rfl⟩ | ⟨_, _, _, _, _, ⟨_, ho⟩ | ⟨_, ho⟩⟩⟩ := pollPending_ok h
  · exact absurd ho terminal_ne_none
  · rfl
  · exact absurd ho terminal_ne_none
  · exact absurd ho terminal_ne_none

theorem pollStep_keepsRequest (h : pollStep n s = .ok (none, t)) : KeepsRequest s.eng.trk t.eng.trk := by
  obtain ⟨_, ⟨_, hp⟩ | ⟨_, ha⟩ | ⟨_, _, rfl⟩⟩ := pollStep_ok h
  · exact .inl (pollPending_trk_of_none (s := s.setEngLast n) hp)
  · exact pollArmed_keepsRequest (s := s.setEngLast n) ha
  · exact .inl rfl

/-- Outside IDLE a get is rejected (R221). -/
theorem asyncGet_trk_of_busy {ty nu mo : Byte} {acc : Bool} (hb : s.eng.trk.state ≠ .idle)
    (h : asyncGet a ty nu mo c n s = .ok (acc, t)) : t.eng.trk = s.eng.trk := by
  obtain ⟨_, ⟨_, _, rfl⟩ | ⟨hi, _⟩ | ⟨hi, _⟩⟩ := asyncGet_ok.1 h
  · rfl
  · exact absurd hi hb
  · exact absurd hi hb

/-- An operation on the port whose result is not a ready PE_POLL's keeps the request. -/
theorem exec_keepsRequest (hb : s.eng.trk.state ≠ .idle) (h : exec i s = .next t)
    (hd : ¬ ∃ o x, t.resp = some (.poll true o x)) : KeepsRequest s.eng.trk t.eng.trk := by
  cases he : i.isEngine with
  | false =>
    obtain ⟨_, _, _, _, _, _, _, rfl⟩ := exec_unit_next he h
    exact .inl rfl
  | true =>
    cases i with
    | peSet =>
      cases exec_peSet_next.symm.trans h
      exact .inl rfl
    | peAsyncGet =>
      obtain ⟨_, u, hu, rfl⟩ := exec_peAsyncGet_next.1 h
      exact .inl (asyncGet_trk_of_busy (t := u) hb hu)
    | pePoll =>
      obtain ⟨res, u, hu, rfl⟩ := exec_pePoll_next.1 h
      cases res with
      | none => exact pollStep_keepsRequest (t := u) hu
      | some _ => exact absurd ⟨_, _, rfl⟩ hd
    | _ => cases he

/-- So does every input that neither constructs the block nor delivers an outcome. -/
theorem takeInput_keepsRequest {i : Input} (hb : s.eng.trk.state ≠ .idle) (h : takeInput i s = .next t)
    (hc : ∀ r, i ≠ .construct r) (hd : ¬ Delivers i t) : KeepsRequest s.eng.trk t.eng.trk := by
  cases i with
  | command =>
    obtain ⟨_, _, he⟩ := runCommand_next.1 h
    exact exec_keepsRequest hb he hd
  | rxBytes | rxDiscard =>
    cases h
    exact .inl rfl
  | getCall =>
    obtain ⟨_, u, hu, rfl⟩ := getCall_next.1 h
    exact .inl (asyncGet_trk_of_busy (s := s.setPollDl s.eng.pollDl.expire) (t := u) hb hu)
  | getPoll =>
    obtain ⟨res, u, hu, rfl⟩ := getPoll_next.1 h
    cases res with
    | none => exact pollStep_keepsRequest (t := u) hu
    | some _ => exact absurd ⟨_, rfl⟩ hd
  | construct r => exact absurd rfl (hc r)

end

/-! ## The obligations -/

/-- Settles O30: each of RT_ARM, RT_MARK_SENT and RT_CLEAR by its own rule, and the others by `exec_trk_of_other`. -/
theorem trackerStateTransitions : Obligations.TrackerStateTransitions := by
  refine ⟨fun i s t h => ?_, fun _ => exec_rtMarkSent_fault⟩
  cases i with
  | rtArm p c a m now =>
    obtain ⟨hi, ht, hr⟩ | ⟨hb, ht, hr⟩ := exec_rtArm_cases h
    · exact .inl ⟨⟨p, c, a, m, now, rfl⟩, hi, congrArg Tracker.state ht, hr⟩
    · exact .inr (.inl ⟨⟨p, c, a, m, now, rfl⟩, hb, congrArg Tracker.state ht, hr⟩)
  | rtMarkSent =>
    obtain ⟨ha, rfl⟩ := exec_rtMarkSent_next.1 h
    exact .inr (.inr (.inl ⟨rfl, ha, rfl⟩))
  | rtClear =>
    obtain rfl := reply_eq_next.1 h
    exact .inr (.inr (.inr (.inl ⟨rfl, rfl⟩)))
  | _ =>
    have hstate : t.trk.state = s.trk.state := by rw [exec_trk_of_other h (by simp [Instr.op])]
    exact .inr (.inr (.inr (.inr ⟨nofun, nofun, nofun, hstate⟩)))

/-- Settles O31: the accepted arm leaves IDLE, the run stays out of it, and outside IDLE an arm is rejected. -/
theorem trackerMutualExclusion : Obligations.TrackerMutualExclusion := by
  intro p p' c c' a a' m m' n n' is s t u v harm hresp his hrun hagain
  have ht : t.trk.state ≠ .idle := by
    obtain ⟨_, ht, _⟩ | ⟨_, _, hr⟩ := exec_rtArm_cases harm
    · rw [ht]
      exact nofun
    · cases hresp.symm.trans hr
  have hu : u.trk.state ≠ .idle := execAll_keeps_busy hrun his ht
  obtain ⟨hi, _⟩ | ⟨_, htrk, hr⟩ := exec_rtArm_cases hagain
  · exact absurd hi hu
  · exact ⟨hr, htrk⟩

/-- Settles O54: the input is taken from a state that differs from `s` in its waiting inputs alone. -/
theorem quietStepsKeepTheRequest : Obligations.QuietStepsKeepTheRequest := by
  intro s t hb h hq
  cases hin : s.inputs with
  | nil =>
    rw [step_nil hin] at h
    cases h
    exact .inl rfl
  | cons i rest =>
    obtain ⟨hc, hd⟩ := hq i rest hin
    rw [step_cons hin] at h
    exact takeInput_keepsRequest (s := { s with inputs := rest }) hb h hc hd

/-- Settles O28: an arm by the state it meets, and the check of R73 before it. -/
theorem armStoresOnlyFromIdle : Obligations.ArmStoresOnlyFromIdle := fun s p c addr m now =>
  ⟨fun hn hi => ⟨_, exec_rtArm_idle hn hi, s.trk.armed_payload p c addr m now⟩, exec_rtArm_busy,
    fun hn => exec_fault_of_lt_clock rfl hn, rfl⟩

/-- Settles O29: each operation by its own rule, and the check of R73 before the two with a time. -/
theorem trackerOperations : Obligations.TrackerOperations :=
  ⟨fun _ ha => exec_rtMarkSent_next.2 ⟨ha, rfl⟩, fun _ => exec_rtMarkSent_fault, exec_rtClear, exec_rtPending,
    fun s now hn => ⟨s.trk.dl.expired now, exec_rtExpired_next.2 ⟨hn, rfl⟩, Deadline.expired_iff now s.trk.dl⟩,
    fun _ _ hn => exec_rtReset_next.2 ⟨hn, rfl⟩,
    fun _ _ hn => ⟨exec_fault_of_lt_clock rfl hn, exec_fault_of_lt_clock rfl hn⟩,
    exec_rtExpire, fun _ => ⟨rfl, rfl, rfl, rfl, rfl, rfl⟩⟩

end Sys2Proof.Machine

/-! PROOFS. 46_protocol_engine.md, the protocol engine and GET (R220 to R240). Each case of PE_ASYNC_GET and PE_POLL has one
equation; a poll that delivers is `pollStep_some`. The timeout law and R237 rest on `Outstanding`, the request as it was accepted,
which every quiet run keeps (`run_keepsRequest`); GET's end is an induction on its rounds (`getLoop_ends`). -/

namespace Sys2Proof.Machine

section
variable {s t : State} {n : Nat} {c : Ctx} {o : PollOutcome} {r : WireRequest} {f : Vector Byte 9} {a : Assembler}
  {left : List Byte}

/-! ## PE_ASYNC_GET, by the state it meets (R221) -/

/-- Outside IDLE it takes the time and answers false. -/
theorem asyncGet_ok_of_busy {addr ty nu mo : Byte} {acc : Bool} (hb : s.eng.trk.state ≠ .idle) :
    asyncGet addr ty nu mo c n s = .ok (acc, t) ↔ s.eng.tLast ≤ n ∧ acc = false ∧ s.setEngLast n = t := by
  simp [asyncGet_ok, hb]

/-- From IDLE it is accepted. -/
theorem asyncGet_accepts (addr ty nu mo : Byte) (c : Ctx) (hn : s.eng.tLast ≤ n) (hi : s.eng.trk.state = .idle) :
    ∃ t, asyncGet addr ty nu mo c n s = .ok (true, t) := by
  obtain ⟨acc, t, h⟩ := asyncGet_completes addr ty nu mo c hn
  obtain ⟨_, ⟨hb, _⟩ | ⟨_, rfl, _⟩ | ⟨_, rfl, _⟩⟩ := asyncGet_ok.1 h
  · exact absurd hi hb
  · exact ⟨t, h⟩
  · exact ⟨t, h⟩

/-- It does not write the poll deadline. -/
theorem asyncGet_pollDl {addr ty nu mo : Byte} {acc : Bool} (h : asyncGet addr ty nu mo c n s = .ok (acc, t)) :
    t.eng.pollDl = s.eng.pollDl := by
  obtain ⟨_, ⟨_, _, rfl⟩ | ⟨_, _, _, rfl⟩ | ⟨_, _, _, rfl⟩⟩ := asyncGet_ok.1 h <;> rfl

/-! ## PE_POLL, one equation per case (R224) -/

/-- The state in which Terminal (R233) leaves the block: the assembler reset, the tracker cleared. -/
def State.release (s : State) : State := (s.setEngAsm s.eng.asm.clear).setEngTrk s.eng.trk.clear

theorem terminal_eq (o : PollOutcome) (hc : s.eng.trk.ctx = some c) : terminal o s = .ok (some (o, c), s.release) :=
  terminal_ok.2 ⟨c, hc, rfl, rfl⟩

/-- R225. -/
theorem pollPending_of_expired (he : s.eng.trk.dl.expired n = true) : pollPending n s = terminal .timedOut s :=
  if_pos he

/-- R226: the drain ends without a frame. -/
theorem pollPending_of_not_ready (he : s.eng.trk.dl.expired n = false) (hd : drain s.eng.asm s.rx = (a, left))
    (hr : a.ready = false) : pollPending n s = .ok (none, (s.setEngAsm a).setRx left) := by
  simp [pollPending, he, hd, hr]

/-- R226: the drain ends with the frame `f`. -/
theorem pollPending_of_frame (he : s.eng.trk.dl.expired n = false) (hd : drain s.eng.asm s.rx = (a, left))
    (hr : a.ready = true) (hf : a.frame? = some f) (hw : s.eng.trk.wire? = some r) : pollPending n s =
      if correlates r f a.okCRC a.okSum then terminal (.value (decodeValue f[2] f[4] f[5])) ((s.setEngAsm a).setRx left)
      else terminal .error ((s.setEngAsm a).setRx []) := by
  have hc := correlateReply_eq (s := (s.setEngAsm a).setRx left) hf hw
  simp only [pollPending, he, hd, Bool.false_eq_true, ↓reduceIte, State.setRx_eng, State.setEngAsm_eng_asm, hr]
  exact hc

/-- R230: the request goes out. -/
theorem pollArmed_of_expired (ha : s.eng.trk.state = .armed) (hw : s.eng.trk.wire? = some r)
    (he : s.eng.pollDl.expired n = true) : pollArmed n s = .ok (none,
      ((s.txWrite (requestFrame r)).setEngTrk { s.eng.trk with state := .pending }).setPollDl (s.eng.pollDl.restart n)) := by
  simp only [pollArmed, he, ↓reduceIte, transmitRequest_ok.2 ⟨r, hw, ha, rfl⟩]
  rfl

/-- R231: the request waits. -/
theorem pollArmed_of_not_expired (he : s.eng.pollDl.expired n = false) : pollArmed n s = .ok (none, s) := by
  simp [pollArmed, he]

theorem exec_pePoll_of_pollStep {res : Option (PollOutcome × Ctx)} (h : pollStep n s = .ok (res, t)) :
    exec (.pePoll n) s = .next { t with resp := some (pollResp res) } :=
  exec_pePoll_next.2 ⟨res, t, h, rfl⟩

/-- R225: a poll of an expired request. -/
theorem pollStep_timedOut (hn : s.eng.tLast ≤ n) (hp : s.eng.trk.state = .pending) (hc : s.eng.trk.ctx = some c)
    (he : s.eng.trk.dl.expired n = true) : pollStep n s = .ok (some (.timedOut, c), (s.setEngLast n).release) :=
  (pollStep_pending hn hp).trans ((pollPending_of_expired (s := s.setEngLast n) he).trans (terminal_eq _ hc))

/-- R226: a poll in time whose drain ends behind `read`, with the frame `f`. -/
theorem pollStep_of_frame {read : List Byte} (hn : s.eng.tLast ≤ n) (hp : s.eng.trk.state = .pending)
    (he : s.eng.trk.dl.expired n = false) (hw : s.eng.trk.wire? = some r) (hrx : s.rx = read ++ left)
    (hnot : ∀ p, p <+: read → p ≠ read → (feedAll p s.eng.asm).ready = false) (ha : feedAll read s.eng.asm = a)
    (hr : a.ready = true) (hf : ∀ i : Fin 9, a.buf[i] = some f[i]) : pollStep n s =
      if correlates r f a.okCRC a.okSum then
        terminal (.value (decodeValue f[2] f[4] f[5])) (((s.setEngLast n).setEngAsm a).setRx left)
      else terminal .error (((s.setEngLast n).setEngAsm a).setRx []) := by
  subst ha
  have hd : drain s.eng.asm s.rx = (feedAll read s.eng.asm, left) := hrx ▸ drain_of_split hnot (.inl hr)
  rw [pollStep_pending hn hp]
  exact pollPending_of_frame (s := s.setEngLast n) he hd hr (Assembler.frame?_of_cells hf) hw

/-- R230: a poll that sends the armed request. -/
theorem pollStep_sends (hn : s.eng.tLast ≤ n) (ha : s.eng.trk.state = .armed) (hw : s.eng.trk.wire? = some r)
    (he : s.eng.pollDl.expired n = true) : pollStep n s = .ok (none,
      (((s.setEngLast n).txWrite (requestFrame r)).setEngTrk { s.eng.trk with state := .pending }).setPollDl
        (s.eng.pollDl.restart n)) :=
  (pollStep_armed hn ha).trans (pollArmed_of_expired (s := s.setEngLast n) ha hw he)

/-! ## What a poll delivers (R225 to R233) -/

theorem terminal_some {o' : PollOutcome} (h : terminal o s = .ok (some (o', c), t)) :
    o' = o ∧ s.eng.trk.ctx = some c ∧ t.eng.trk = s.eng.trk.clear := by
  obtain ⟨c', hc, hres, rfl⟩ := terminal_ok.1 h
  cases hres
  exact ⟨rfl, hc, rfl⟩

/-- An outcome of a request in PENDING carries its context and ends it, and is TimedOut exactly when its deadline has expired. -/
theorem pollPending_some (h : pollPending n s = .ok (some (o, c), t)) :
    s.eng.trk.ctx = some c ∧ t.eng.trk = s.eng.trk.clear ∧ (o = .timedOut ↔ s.eng.trk.dl.expired n = true) := by
  obtain ⟨he, ho⟩ | ⟨he, ⟨_, hres, _⟩ | ⟨_, _, _, _, _, ⟨_, ho⟩ | ⟨_, ho⟩⟩⟩ := pollPending_ok h
  · obtain ⟨rfl, hc, ht⟩ := terminal_some ho
    exact ⟨hc, ht, by simp [he]⟩
  · cases hres
  · obtain ⟨rfl, hc, ht⟩ := terminal_some ho
    exact ⟨hc, ht, by simp [he]⟩
  · obtain ⟨rfl, hc, ht⟩ := terminal_some ho
    exact ⟨hc, ht, by simp [he]⟩

/-- Only a request in PENDING is delivered. -/
theorem pollStep_some (h : pollStep n s = .ok (some (o, c), t)) :
    pollPending n (s.setEngLast n) = .ok (some (o, c), t) ∧ s.eng.trk.state = .pending := by
  obtain ⟨_, ⟨hp, h⟩ | ⟨_, h⟩ | ⟨_, hres, _⟩⟩ := pollStep_ok h
  · exact ⟨h, hp⟩
  · cases (pollArmed_ok h).1
  · cases hres

/-- TimedOut only comes of an expired deadline (R225). -/
theorem exec_pePoll_timedOut_expired {x : Option Ctx} (h : exec (.pePoll n) s = .next t)
    (hr : t.resp = some (.poll true (some .timedOut) x)) : s.eng.trk.dl.expired n = true := by
  obtain ⟨_ | ⟨o, c⟩, u, hu, rfl⟩ := exec_pePoll_next.1 h
  · cases hr
  · cases hr
    obtain ⟨_, _, hiff⟩ := pollPending_some (s := s.setEngLast n) (pollStep_some hu).1
    exact hiff.1 rfl

/-- A poll in PENDING that delivers nothing was before the deadline (R225). -/
theorem pollStep_none_not_expired (hp : s.eng.trk.state = .pending) (hc : s.eng.trk.ctx = some c)
    (h : pollStep n s = .ok (none, t)) : s.eng.trk.dl.expired n = false := by
  by_contra he
  cases h.symm.trans (pollStep_timedOut (pollStep_ok h).1 hp hc (Bool.eq_true_of_not_eq_false he))

/-- The words of a Value are body bytes of an assembled frame (R87), so the codec's range holds (R122). -/
theorem pollPending_value_range {v : I16} (ha : AssemblerInv s.eng.asm) (h : pollPending n s = .ok (some (.value v, c), t)) :
    -16383 ≤ v.toInt ∧ v.toInt ≤ 16383 := by
  obtain ⟨_, ho⟩ | ⟨_, ⟨_, hres, _⟩ | ⟨hr, f, _, hf, _, ⟨_, ho⟩ | ⟨_, ho⟩⟩⟩ := pollPending_ok h
  · cases (terminal_some ho).1
  · cases hres
  · cases (terminal_some ho).1
    obtain ⟨f', hf', _, _, hbody⟩ := assemblerInv_frame (assemblerInv_drain ha s.rx) hr
    cases hf.symm.trans hf'
    exact decodeValue_range f[2] (hbody 4 (by decide)) (hbody 5 (by decide))
  · cases (terminal_some ho).1

/-! ## The request after it was accepted (R206, R237, R240) -/

/-- `x` holds the request that was accepted with the context `c` at the time `t0`, and its deadline lasts `D`. -/
structure Outstanding (c : Ctx) (t0 : Nat) (D : Int) (x : Tracker) : Prop where
  busy : x.state ≠ .idle
  ctx  : x.ctx = some c
  dl   : x.dl = { start := t0, duration := D, forced := false }

section
variable {x y z : Tracker} {t0 : Nat} {D : Int}

theorem Outstanding.expired_iff (h : Outstanding c t0 D x) (hD : 0 ≤ D) :
    x.dl.expired n = true ↔ (t0 : Int) + D ≤ n := by
  rw [h.dl, Deadline.expired_iff]
  simp only [hD, true_and, Bool.false_eq_true, false_or]
  omega

theorem Outstanding.keeps (h : Outstanding c t0 D x) (hk : KeepsRequest x y) : Outstanding c t0 D y := by
  obtain rfl | ⟨_, rfl⟩ := hk
  · exact h
  · exact ⟨nofun, h.ctx, h.dl⟩

theorem KeepsRequest.pending (hk : KeepsRequest x y) (hp : x.state = .pending) : y.state = .pending := by
  obtain rfl | ⟨_, rfl⟩ := hk
  · exact hp
  · rfl

theorem KeepsRequest.busy (hk : KeepsRequest x y) (hb : x.state ≠ .idle) : y.state ≠ .idle := by
  obtain rfl | ⟨_, rfl⟩ := hk
  · exact hb
  · exact nofun

theorem KeepsRequest.trans (hk : KeepsRequest x y) (hk' : KeepsRequest y z) : KeepsRequest x z := by
  obtain rfl | ⟨ha, rfl⟩ := hk
  · exact hk'
  · obtain rfl | ⟨ha', _⟩ := hk'
    · exact .inr ⟨ha, rfl⟩
    · cases ha'

end

theorem asyncGet_outstanding {addr ty nu mo : Byte} (h : asyncGet addr ty nu mo c n s = .ok (true, t)) :
    Outstanding c n s.eng.trk.dl.duration t.eng.trk := by
  obtain ⟨_, ⟨_, hacc, _⟩ | ⟨_, _, _, rfl⟩ | ⟨_, _, _, rfl⟩⟩ := asyncGet_ok.1 h
  · cases hacc
  · exact ⟨nofun, rfl, rfl⟩
  · exact ⟨nofun, rfl, rfl⟩

/-- Both ways to make a request leave it outstanding. -/
theorem accepts_outstanding (h : Accepts c n s t) : Outstanding c n s.eng.trk.dl.duration t.eng.trk := by
  obtain ⟨_, _, _, _, h, hr⟩ | ⟨rfl, _, _, _, _, h, hr⟩ := h
  · obtain ⟨acc, u, hu, rfl⟩ := exec_peAsyncGet_next.1 h
    cases hr
    exact asyncGet_outstanding (t := u) hu
  · obtain ⟨acc, u, hu, rfl⟩ := getCall_next.1 h
    cases acc with
    | true => exact asyncGet_outstanding (s := s.setPollDl s.eng.pollDl.expire) (t := u) hu
    | false => cases hr

/-- A quiet run keeps the request it starts with. -/
theorem run_keepsRequest {k : Nat} (hb : s.eng.trk.state ≠ .idle) (hq : Quiet k s) (h : core.run k s = .next t) :
    KeepsRequest s.eng.trk t.eng.trk := by
  induction k generalizing s with
  | zero =>
    cases core_run_zero.1 h
    exact .inl rfl
  | succ k ih =>
    obtain ⟨u, hu, h⟩ := core_run_succ.1 h
    obtain ⟨hstep, hq⟩ := hq u hu
    have hk : KeepsRequest s.eng.trk u.eng.trk := quietStepsKeepTheRequest s u hb hu hstep
    exact hk.trans (ih (hk.busy hb) hq h)

theorem outstanding_after_quiet_run {k : Nat} {u : State} (h : Accepts c n s t) (hq : Quiet k t)
    (hrun : core.run k t = .next u) : Outstanding c n s.eng.trk.dl.duration u.eng.trk := by
  have ht := accepts_outstanding h
  exact ht.keeps (run_keepsRequest ht.busy hq hrun)

/-- R225 of a request that is outstanding. -/
theorem exec_pePoll_of_outstanding {t0 : Nat} {D : Int} (hq : Outstanding c t0 D s.eng.trk) (hD : 0 ≤ D)
    (hp : s.eng.trk.state = .pending) (he : (t0 : Int) + D ≤ n) (h : exec (.pePoll n) s = .next t) :
    t.resp = some (.poll true (some .timedOut) (some c)) := by
  obtain ⟨res, u, hu, rfl⟩ := exec_pePoll_next.1 h
  cases hu.symm.trans (pollStep_timedOut (pollStep_ok hu).1 hp hq.ctx ((hq.expired_iff hD).2 he))
  rfl

/-- A poll of an ARMED request delivers nothing and keeps it (R230, R231). -/
theorem exec_pePoll_of_armed (ha : s.eng.trk.state = .armed) (h : exec (.pePoll n) s = .next t) :
    t.resp = some (.poll false none none) ∧ KeepsRequest s.eng.trk t.eng.trk := by
  obtain ⟨res, u, hu, rfl⟩ := exec_pePoll_next.1 h
  cases res with
  | none => exact ⟨rfl, pollStep_keepsRequest (t := u) hu⟩
  | some oc => cases ha.symm.trans (pollStep_some hu).2

/-! ## GET (R238, R239) -/

/-- What a GET that was accepted may answer: a value in range or a sentinel other than Busy (R261). -/
def GetResult (x : Int) : Prop :=
  (-16383 ≤ x ∧ x ≤ 16383) ∨ x = Config.sentinels.timedOut ∨ x = Config.sentinels.error

/-- GET has returned such an answer and the engine is IDLE. -/
def GetEnds (out : Host.Outcome State Fault Refusal) : Prop :=
  ∃ (t : State) (x : Int), out = .next t ∧ t.resp = some (.getNum x) ∧ t.eng.trk.state = .idle ∧ GetResult x

theorem pollStep_getResult (ha : AssemblerInv s.eng.asm) (h : pollStep n s = .ok (some (o, c), t)) : GetResult o.num := by
  cases o with
  | value v => exact .inl (pollPending_value_range (s := s.setEngLast n) ha (pollStep_some h).1)
  | timedOut => exact .inr (.inl rfl)
  | error => exact .inr (.inr rfl)

/-- A round whose poll is ready is the last. -/
theorem getLoop_cons_some {q : GetRound} {rest : List GetRound}
    (h : pollStep q.now (s.rxAppend q.bytes) = .ok (some (o, c), t)) :
    getLoop (q :: rest) s = .next { t with resp := some (.getNum o.num) } := by
  simp only [getLoop, getPoll_next.2 ⟨_, _, h, rfl⟩]
  rfl

/-- After another the loop goes on. -/
theorem getLoop_cons_none {q : GetRound} {rest : List GetRound} (h : pollStep q.now (s.rxAppend q.bytes) = .ok (none, t)) :
    getLoop (q :: rest) s = getLoop rest { t with resp := some .getRunning } := by
  simp only [getLoop, getPoll_next.2 ⟨_, _, h, rfl⟩]
  rfl

/-- From PENDING the loop ends by a round at or past the deadline: until then each round keeps the request, and that round
times out if none before it was ready. -/
theorem getLoop_ends {t0 : Nat} {D : Int} {rounds : List GetRound} (hs : Inv s) (hp : s.eng.trk.state = .pending)
    (hq : Outstanding c t0 D s.eng.trk) (hD : 0 ≤ D)
    (hmono : (s.eng.tLast :: rounds.map GetRound.now).Pairwise (· ≤ ·)) (hr : ∃ q ∈ rounds, (t0 : Int) + D ≤ q.now) :
    GetEnds (getLoop rounds s) := by
  induction rounds generalizing s with
  | nil => simp at hr
  | cons q rest ih =>
    obtain ⟨hle, hrest⟩ := List.pairwise_cons.1 hmono
    have hn : s.eng.tLast ≤ q.now := hle _ List.mem_cons_self
    have hs' : Inv (s.rxAppend q.bytes) := inv_outside hs s.crc s.tx _ s.inputs s.resp
    obtain ⟨res, u, hu⟩ := pollStep_completes hs'.eng hn
    cases res with
    | some oc =>
      obtain ⟨_, htrk, _⟩ := pollPending_some (s := (s.rxAppend q.bytes).setEngLast q.now) (pollStep_some hu).1
      exact ⟨_, _, getLoop_cons_some hu, rfl, congrArg Tracker.state htrk, pollStep_getResult hs'.eng.asm hu⟩
    | none =>
      rw [getLoop_cons_none hu]
      have hk : KeepsRequest s.eng.trk u.eng.trk := pollStep_keepsRequest (s := s.rxAppend q.bytes) hu
      have hlast : u.eng.tLast = q.now := (pollStep_move hu).2.tLast_eq
      have hlater : ¬ (t0 : Int) + D ≤ q.now := by
        have he : s.eng.trk.dl.expired q.now = false := pollStep_none_not_expired (s := s.rxAppend q.bytes) hp hq.ctx hu
        rw [← hq.expired_iff hD, he]
        exact Bool.false_ne_true
      obtain ⟨q', hq', hge⟩ := hr
      obtain rfl | hmem := List.mem_cons.1 hq'
      · exact absurd hge hlater
      · exact ih (s := { u with resp := some .getRunning }) (inv_outside (inv_pollStep hs' hu) u.crc u.tx u.rx u.inputs _)
          (hk.pending hp) (hq.keeps hk) (hlast ▸ hrest) ⟨q', hmem, hge⟩

/-- From IDLE GET goes on, with its request stored and the poll deadline forced. -/
theorem getCall_accepts (addr ty nu mo : Byte) (hn : s.eng.tLast ≤ n) (hi : s.eng.trk.state = .idle) :
    ∃ t, getCall addr ty nu mo n s = .next t ∧ t.resp = some .getRunning ∧ t.eng.tLast = n ∧ t.eng.pollDl.forced = true := by
  obtain ⟨u, hu⟩ := asyncGet_accepts (s := s.setPollDl s.eng.pollDl.expire) addr ty nu mo 0 hn hi
  refine ⟨_, getCall_next.2 ⟨_, u, hu, rfl⟩, rfl, (asyncGet_move hu).2.tLast_eq, ?_⟩
  exact congrArg Deadline.forced (asyncGet_pollDl hu)

/-- A forced poll deadline has expired at every time, since a request is ARMED only where polling is enabled. -/
theorem pollDl_expired_of_forced (hs : EngineInv s.eng) (ha : s.eng.trk.state = .armed) (hf : s.eng.pollDl.forced = true) :
    s.eng.pollDl.expired n = true := by
  have hd := hs.armed ha
  have := hs.pollDl.fixed
  simp only [Engine.pollDisabled, decide_eq_false_iff_not] at hd
  exact (Deadline.expired_iff n s.eng.pollDl).2 ⟨by omega, .inl hf⟩

/-- The first round sends a request that is still ARMED. -/
theorem getLoop_of_armed {first : GetRound} {rounds : List GetRound} (hs : Inv s) (ha : s.eng.trk.state = .armed)
    (hf : s.eng.pollDl.forced = true) (hn : s.eng.tLast ≤ first.now) :
    ∃ t, getLoop (first :: rounds) s = getLoop rounds t ∧ Inv t ∧ t.eng.trk = { s.eng.trk with state := .pending } ∧
      t.eng.tLast = first.now := by
  obtain ⟨⟨r, hw⟩, _⟩ := hs.eng.trk.stored (by simp [ha])
  have hs' : Inv (s.rxAppend first.bytes) := inv_outside hs s.crc s.tx _ s.inputs s.resp
  have hu := pollStep_sends (s := s.rxAppend first.bytes) hn ha hw (pollDl_expired_of_forced hs.eng ha hf)
  exact ⟨_, getLoop_cons_none hu, inv_outside (inv_pollStep hs' hu) _ _ _ _ _, rfl, rfl⟩

end

/-! ## The obligations: set, get and poll -/

/-- Settles O32: PE_SET's frame is what FB_BUILD answers of the payload that VC_ENC's words make. -/
theorem setAppendsItsFrame : Obligations.SetAppendsItsFrame := fun s _ _ _ v x =>
  ⟨valueFlags v x, word0 v, word1 v, _, exec_peSet_next, exec_vcEnc v x s, exec_fbBuild_of_le s (by decide), rfl⟩

/-- Settles O33: the three cases of PE_ASYNC_GET, and the check of R73 before them. -/
theorem asyncGetArmsOrTransmits : Obligations.AsyncGetArmsOrTransmits := by
  intro s addr ctype number mode c now
  refine ⟨fun hn hi hp => ?_, fun hn hi hp => ?_, fun hn hb => ?_, fun hn => exec_fault_of_lt_clock rfl hn, rfl⟩
  · have hd : s.eng.pollDisabled = false := decide_eq_false (not_le.2 hp)
    exact exec_peAsyncGet_next.2 ⟨_, _, asyncGet_ok.2 ⟨hn, .inr (.inl ⟨hi, rfl, hd, rfl⟩)⟩, rfl⟩
  · have hd : s.eng.pollDisabled = true := decide_eq_true hp
    exact exec_peAsyncGet_next.2 ⟨_, _, asyncGet_ok.2 ⟨hn, .inr (.inr ⟨hi, rfl, hd, rfl⟩)⟩, rfl⟩
  · exact exec_peAsyncGet_next.2 ⟨_, _, (asyncGet_ok_of_busy hb).2 ⟨hn, rfl, rfl⟩, rfl⟩

/-- Settles O34: an expired request is TimedOut before the drain, and TimedOut only comes of an expired one. -/
theorem pollTimesOutBeforeReading : Obligations.PollTimesOutBeforeReading := by
  refine ⟨fun s now c hn hp hc hdur hexp => ?_, fun s t now c hdur h hr => ?_⟩
  · have he := (Deadline.expired_iff now s.eng.trk.dl).2 ⟨hdur, hexp⟩
    exact exec_pePoll_of_pollStep (pollStep_timedOut hn hp hc he)
  · have he := exec_pePoll_timedOut_expired h hr
    rw [Deadline.expired_of_infinite now hdur] at he
    cases he

/-- Settles O35: the drain reads all of RX. -/
theorem pollDrainsAllOfRxWhenNotReady : Obligations.PollDrainsAllOfRxWhenNotReady := by
  intro s now hn hp he hnot
  have hd : drain s.eng.asm s.rx = (feedAll s.rx s.eng.asm, []) := by
    simpa using drain_of_split (left := []) (fun p hpre _ => hnot p hpre) (.inr rfl)
  have h := pollPending_of_not_ready (s := s.setEngLast now) he hd (hnot _ (List.prefix_refl _))
  exact exec_pePoll_of_pollStep ((pollStep_pending hn hp).trans h)

/-- Settles O36: the conjunction of R227. -/
theorem correlationPredicate : Obligations.CorrelationPredicate := by
  intro r f okC okS
  cases hm : r.mode <;> simp [correlates, hm, and_assoc]

/-- Settles O37: the drain stops behind `read`, and the frame there correlates. -/
theorem pollDeliversTheMatchingReply : Obligations.PollDeliversTheMatchingReply := by
  intro s now c r read left f hn hp he hc hw hrx hnot hr hf hcorr
  have h := pollStep_of_frame hn hp he hw hrx hnot rfl hr hf
  rw [if_pos hcorr] at h
  exact exec_pePoll_of_pollStep (h.trans (terminal_eq _ hc))

/-- Settles O38: the same drain, and RX is flushed since the frame does not correlate. -/
theorem pollFlushesOnMismatch : Obligations.PollFlushesOnMismatch := by
  intro s now c r read left f hn hp he hc hw hrx hnot hr hf hcorr
  have h := pollStep_of_frame hn hp he hw hrx hnot rfl hr hf
  rw [if_neg (Bool.eq_false_iff.1 hcorr)] at h
  exact exec_pePoll_of_pollStep (h.trans (terminal_eq _ hc))

/-- Settles O39: the equation of the poll that sends. -/
theorem pollSendsTheArmedRequest : Obligations.PollSendsTheArmedRequest := fun _ _ _ hn ha hw he =>
  exec_pePoll_of_pollStep (pollStep_sends hn ha hw he)

/-- Settles O40: the two cases that take the time alone, and RX, which is read in PENDING only. -/
theorem pollWithNothingToDo : Obligations.PollWithNothingToDo := by
  refine ⟨fun s now hn hcase => ?_, fun s t now hp h => ?_⟩
  · obtain hi | ⟨ha, he⟩ := hcase
    · exact exec_pePoll_of_pollStep (pollStep_idle hn hi)
    · exact exec_pePoll_of_pollStep
        ((pollStep_armed hn ha).trans (pollArmed_of_not_expired (s := s.setEngLast now) he))
  · obtain ⟨_, u, hu, rfl⟩ := exec_pePoll_next.1 h
    exact not_not.1 (mt (pollStep_line hu).2.2 hp)

/-! ## The obligations: the request after a quiet run -/

/-- Settles O45: the request is still outstanding after the run, and outside IDLE a get is rejected. -/
theorem oneOutstandingRequest : Obligations.OneOutstandingRequest := by
  intro c n k s t u hacc hq hrun addr ctype number mode c' m v h
  have hb := (outstanding_after_quiet_run hacc hq hrun).busy
  obtain ⟨_, w, hw, rfl⟩ := exec_peAsyncGet_next.1 h
  obtain ⟨_, rfl, rfl⟩ := (asyncGet_ok_of_busy hb).1 hw
  exact ⟨rfl, rfl, rfl⟩

/-- Settles O55: GET forces the poll deadline, and its PE_ASYNC_GET is rejected as in O45. -/
theorem getIsRejectedWhileARequestIsOutstanding : Obligations.GetIsRejectedWhileARequestIsOutstanding := by
  intro c n k s t u hacc hq hrun addr ctype number mode m v h
  have hb := (outstanding_after_quiet_run hacc hq hrun).busy
  obtain ⟨_, w, hw, rfl⟩ := getCall_next.1 h
  obtain ⟨_, rfl, rfl⟩ := (asyncGet_ok_of_busy (s := u.setPollDl u.eng.pollDl.expire) hb).1 hw
  exact ⟨rfl, rfl, rfl⟩

/-- Settles O46: every quiet run, and the poll that transmits the request, keeps it outstanding, with its deadline at t0 + D. -/
theorem timeoutLaw : Obligations.TimeoutLaw := by
  intro c t0 k s t u hs hD hacc hquiet hrun now v hpoll
  have hu := outstanding_after_quiet_run hacc hquiet hrun
  rw [hs.eng.trk.deadline.fixed] at hu
  refine ⟨fun hlt c' hr => ?_, fun hp hge => exec_pePoll_of_outstanding hu hD hp hge hpoll, fun ha => ?_⟩
  · exact absurd ((hu.expired_iff hD).1 (exec_pePoll_timedOut_expired hpoll hr)) (not_le.2 hlt)
  · obtain ⟨hresp, hkv⟩ := exec_pePoll_of_armed ha hpoll
    have hv := hu.keeps hkv
    refine ⟨hresp, fun hp j now' w x hquiet' hrun' hpoll' hge => ?_⟩
    have hk := run_keepsRequest hv.busy hquiet' hrun'
    exact exec_pePoll_of_outstanding (hv.keeps hk) hD (hk.pending hp) hge hpoll'

/-! ## The obligations: GET -/

/-- Settles O49: the beginning of GET is PE_ASYNC_GET with context 0 on the state with the poll deadline forced. -/
theorem getForcesThenAsks : Obligations.GetForcesThenAsks := by
  intro s addr ctype number mode now rest hin hn
  rw [step_cons hin]
  refine ⟨fun hb => ?_, fun hi => ?_⟩
  · have hu := (asyncGet_ok_of_busy (s := State.setPollDl s.eng.pollDl.expire { s with inputs := rest }) (addr := addr)
      (ty := ctype) (nu := number) (mo := mode) (c := 0) hb).2 ⟨hn, rfl, rfl⟩
    exact getCall_next.2 ⟨_, _, hu, rfl⟩
  · obtain ⟨u, hu⟩ := asyncGet_accepts (s := State.setPollDl s.eng.pollDl.expire { s with inputs := rest })
      addr ctype number mode 0 hn hi
    exact ⟨_, _, getCall_next.2 ⟨_, u, hu, rfl⟩, exec_peAsyncGet_next.2 ⟨_, u, hu, rfl⟩, rfl, rfl⟩

/-- Settles O50: a pass of GET and a PE_POLL share their step and differ in the form of the result. -/
theorem getPollsUntilReady : Obligations.GetPollsUntilReady := by
  intro s t now rest hin h
  rw [step_cons hin]
  obtain ⟨res, u, hu, rfl⟩ := exec_pePoll_next.1 h
  cases res with
  | some oc => exact .inl ⟨oc.1, oc.2, rfl, getPoll_next.2 ⟨_, u, hu, rfl⟩⟩
  | none => exact .inr ⟨rfl, getPoll_next.2 ⟨_, u, hu, rfl⟩⟩

/-- Settles O52: after the first round the request is PENDING, and from there the loop ends by its deadline. -/
theorem getEndsByItsDeadline : Obligations.GetEndsByItsDeadline := by
  intro s addr ctype number mode now first rounds hs hi hn hD hmono hround
  obtain ⟨t, hcall, hresp, hlast, hforced⟩ := getCall_accepts addr ctype number mode hn hi
  have ht : Inv t := inv_takeInput (i := .getCall addr ctype number mode now) hs hcall
  have hq := accepts_outstanding (.inr ⟨rfl, addr, ctype, number, mode, hcall, hresp⟩)
  rw [hs.eng.trk.deadline.fixed] at hq
  have hrun : getRun addr ctype number mode now (first :: rounds) s = getLoop (first :: rounds) t := by
    simp [getRun, hcall, hresp]
  rw [← hlast] at hmono
  show GetEnds _
  rw [hrun]
  cases hst : t.eng.trk.state with
  | idle => exact absurd hst hq.busy
  | pending =>
    obtain ⟨r, hr, hge⟩ := hround
    exact getLoop_ends ht hst hq hD hmono ⟨r, List.mem_cons_of_mem _ hr, hge⟩
  | armed =>
    obtain ⟨hle, hrest⟩ := List.pairwise_cons.1 hmono
    obtain ⟨u, hloop, hu, htrk, hul⟩ := getLoop_of_armed (rounds := rounds) ht hst hforced (hle _ List.mem_cons_self)
    rw [hloop]
    exact getLoop_ends hu (congrArg Tracker.state htrk) (hq.keeps (.inr ⟨hst, htrk⟩)) hD (hul ▸ hrest) hround

end Sys2Proof.Machine

/-! PROOFS. 60_exceptions.md and 70_reset_and_hazards.md: the fault table (R262), the outcomes and their numbers (R260, R261),
construction (R291), the host's discipline (R295) and the hazards of R304 and R306. An operation that the table lets pass
completes (`exec_completes`), which also carries a disciplined host to the end of its inputs. What a poll delivers other than
TimedOut comes of a frame framed as R87 says; a request that R306 lists differs from every such frame (`Framed.foreign`). -/

namespace Sys2Proof.Machine

/-! ## The framing of R87 and the requests of R306 -/

/-- A frame in the framing of R87: bit 7 marks the first byte and no other. -/
def Framed (f : Vector Byte 9) : Prop := f[0].getLsbD 7 = true ∧ ∀ i : Fin 9, i.val ≠ 0 → f[i].getLsbD 7 = false

/-- The frame that echoes an unanswerable request breaks the framing (R306), so a framed one differs from it. -/
theorem Framed.foreign {f : Vector Byte 9} {r : WireRequest} (hf : Framed f) (hr : Unanswerable r) : Foreign r f := by
  obtain ⟨h0, hbody⟩ := hf
  have hne {x y : Byte} (hx : x.getLsbD 7 = false) (hy : y.getLsbD 7 = true) : x ≠ y := by
    rintro rfl
    cases hx.symm.trans hy
  obtain haddr | htype | hnumber | hflags | hcmd := hr
  · exact .inl (hne haddr h0).symm
  · exact .inr (.inr (.inr (.inl (hne (hbody 6 (by decide)) htype))))
  · exact .inr (.inr (.inr (.inr (hne (hbody 7 (by decide)) hnumber))))
  · refine .inr (.inr (.inl (hne ?_ ?_)))
    · simpa using hbody 2 (by decide)
    · simp [hflags]
  · exact .inr (.inl (hne (hbody 1 (by decide)) hcmd))

/-- A frame that correlates has every field of the reply to the request (R227). -/
theorem not_foreign_of_correlates {f : Vector Byte 9} {r : WireRequest} {okC okS : Bool}
    (h : correlates r f okC okS = true) : ¬ Foreign r f := by
  obtain ⟨h0, h1, _, h2, h6, h7⟩ := (correlationPredicate r f okC okS).1 h
  simp only [Foreign, ne_eq, h0, h1, h2, h6, h7, not_true_eq_false, or_self, not_false_eq_true]

section
variable {i : Instr} {s t : State} {n : Nat} {c : Ctx} {o : PollOutcome} {r : WireRequest}

/-! ## The fault table (R262) -/

theorem clock_le_of_no_fault (hi : i.now? = some n) (h : i.fault? s = none) : i.clock s ≤ n := by
  have hrow : i.fault? s = if n < i.clock s then some .timeNotMonotonic else none := by
    cases i <;> cases hi <;> rfl
  rw [hrow] at h
  by_contra hn
  rw [if_pos (not_le.1 hn)] at h
  cases h

/-- Where the table gives a fault, the operation ends in it. -/
theorem exec_fault_of_table {f : Fault} (h : i.fault? s = some f) : exec i s = .fault f := by
  cases i with
  | crcWrite b =>
    obtain ⟨hc, ⟨⟩⟩ := Option.ite_none_right_eq_some.1 h
    exact (exec_crc_uninit b hc).1
  | crcEnd =>
    obtain ⟨hc, ⟨⟩⟩ := Option.ite_none_right_eq_some.1 h
    exact (exec_crc_uninit 0 hc).2.1
  | crcValue =>
    obtain ⟨hc, ⟨⟩⟩ := Option.ite_none_right_eq_some.1 h
    exact (exec_crc_uninit 0 hc).2.2
  | fbBuild =>
    obtain ⟨hn, ⟨⟩⟩ := Option.ite_none_right_eq_some.1 h
    exact exec_fbBuild_overflow (by omega)
  | rtMarkSent =>
    obtain ⟨ha, ⟨⟩⟩ := Option.ite_none_left_eq_some.1 h
    exact exec_rtMarkSent_fault ha
  | dlReset | dlExpired | rtArm | rtExpired | rtReset | peAsyncGet | pePoll =>
    obtain ⟨hn, ⟨⟩⟩ := Option.ite_none_right_eq_some.1 h
    exact exec_fault_of_lt_clock rfl hn
  | _ => cases h

/-- Where the table gives none, the operation completes. The invariant is what FA_VIEW and PE_POLL need: no cell or field they
read holds ⊥ (R8, R29, R39). -/
theorem exec_completes (hs : Inv s) (h : i.fault? s = none) : ∃ t, exec i s = .next t := by
  have hcrc (hrow : i.fault? s = if s.crc = none then some .crcUninit else none) : ∃ r, s.crc = some r :=
    Option.ne_none_iff_exists'.1 fun hc => by simp [hrow, hc] at h
  cases i with
  | crcWrite b =>
    obtain ⟨r, hr⟩ := hcrc rfl
    exact ⟨_, exec_crcWrite b hr⟩
  | crcEnd =>
    obtain ⟨r, hr⟩ := hcrc rfl
    exact ⟨_, exec_crcEnd hr⟩
  | crcValue =>
    obtain ⟨r, hr⟩ := hcrc rfl
    exact ⟨_, exec_crcValue hr⟩
  | fbBuild addr cmd u n p =>
    have hn : n ≤ 7 := by
      by_contra hn
      simp [Instr.fault?, show 10 < n + 3 by omega] at h
    exact ⟨_, exec_fbBuild_of_le s hn⟩
  | faView =>
    cases hr : s.asm.ready with
    | false => exact ⟨_, exec_faView_none hr⟩
    | true =>
      obtain ⟨f, hf, _⟩ := assemblerInv_frame hs.asm hr
      exact ⟨_, exec_faView_frame hr hf⟩
  | dlReset => exact ⟨_, exec_dlReset_next.2 ⟨clock_le_of_no_fault rfl h, rfl⟩⟩
  | dlExpired => exact ⟨_, exec_dlExpired_next.2 ⟨clock_le_of_no_fault rfl h, rfl⟩⟩
  | rtArm => exact ⟨_, exec_rtArm_next.2 ⟨clock_le_of_no_fault rfl h, rfl⟩⟩
  | rtExpired => exact ⟨_, exec_rtExpired_next.2 ⟨clock_le_of_no_fault rfl h, rfl⟩⟩
  | rtReset => exact ⟨_, exec_rtReset_next.2 ⟨clock_le_of_no_fault rfl h, rfl⟩⟩
  | rtMarkSent =>
    have ha : s.trk.state = .armed := by
      by_contra ha
      simp [Instr.fault?, ha] at h
    exact ⟨_, exec_rtMarkSent_next.2 ⟨ha, rfl⟩⟩
  | peSet => exact ⟨_, exec_peSet_next⟩
  | peAsyncGet addr ty nu mo c =>
    obtain ⟨_, _, hu⟩ := asyncGet_completes addr ty nu mo c (clock_le_of_no_fault rfl h)
    exact ⟨_, exec_peAsyncGet_next.2 ⟨_, _, hu, rfl⟩⟩
  | pePoll =>
    obtain ⟨_, _, hu⟩ := pollStep_completes hs.eng (clock_le_of_no_fault rfl h)
    exact ⟨_, exec_pePoll_of_pollStep hu⟩
  | crcBegin | crcSpan | vcEnc | vcDec | faFeed | faReady | faReset | dlExpire | rtClear | rtPending | rtExpire =>
    exact ⟨_, rfl⟩

/-- UNDEFINED_OP is the port's fault, and no operation's own (R91). -/
theorem fault?_ne_undefinedOp (i : Instr) (s : State) : i.fault? s ≠ some .undefinedOp := by
  intro h
  cases i with
  | crcWrite | crcEnd | crcValue | fbBuild | dlReset | dlExpired | rtArm | rtExpired | rtReset | peAsyncGet | pePoll =>
    cases (Option.ite_none_right_eq_some.1 h).2
  | rtMarkSent => cases (Option.ite_none_left_eq_some.1 h).2
  | _ => cases h

theorem exec_fault_iff {f : Fault} (hs : Inv s) : exec i s = .fault f ↔ i.fault? s = some f := by
  refine ⟨fun h => ?_, exec_fault_of_table⟩
  cases hf : i.fault? s with
  | none =>
    obtain ⟨t, ht⟩ := exec_completes hs hf
    cases ht.symm.trans h
  | some g =>
    cases (exec_fault_of_table hf).symm.trans h
    rfl

/-- What a command that ends in a fault is: an unassigned code, or an operation with a fault of its own. -/
theorem runCommand_fault {cmd : Command} {f : Fault} : runCommand cmd s = .fault f ↔
    (Op.ofCode cmd.op = none ∧ f = .undefinedOp) ∨ ∃ i, decode cmd = .ok i ∧ exec i s = .fault f := by
  cases hc : Op.ofCode cmd.op with
  | none => simp [runCommand, decode_unassigned hc, eq_comm]
  | some o => cases ho : decodeOperands o cmd.operands <;> simp [runCommand, decode, hc, ho]

/-! ## A host that keeps the discipline (R295) -/

theorem takeInput_inputs {x : Input} (h : takeInput x s = .next t) : t.inputs = s.inputs := by
  cases x with
  | command =>
    obtain ⟨i, _, hi⟩ := runCommand_next.1 h
    exact (unitsAndEngineAreSeparate i s t hi).2.2
  | rxBytes | rxDiscard | construct =>
    cases h
    rfl
  | getCall =>
    obtain ⟨_, u, hu, rfl⟩ := getCall_next.1 h
    rw [asyncGet_frame hu]
    rfl
  | getPoll =>
    obtain ⟨_, u, hu, rfl⟩ := getPoll_next.1 h
    rw [pollStep_frame hu]
    rfl

/-- An input the host gives in obedience to R295 is taken to its end. -/
theorem takeInput_completes {x : Input} (hs : Inv s) (h : hostObeys x s) : ∃ t, takeInput x s = .next t := by
  cases x with
  | command =>
    obtain ⟨i, hdec, hnone⟩ := h
    obtain ⟨t, ht⟩ := exec_completes hs hnone
    exact ⟨t, runCommand_next.2 ⟨i, hdec, ht⟩⟩
  | rxBytes | rxDiscard | construct => exact ⟨_, rfl⟩
  | getCall addr ty nu mo now =>
    obtain ⟨_, _, hu⟩ := asyncGet_completes (s := s.setPollDl s.eng.pollDl.expire) addr ty nu mo 0 h
    exact ⟨_, getCall_next.2 ⟨_, _, hu, rfl⟩⟩
  | getPoll =>
    obtain ⟨_, _, hu⟩ := pollStep_completes hs.eng h
    exact ⟨_, getPoll_next.2 ⟨_, _, hu, rfl⟩⟩

theorem run_of_disciplined {ins : List Input} (hs : Inv s) (hin : s.inputs = ins) (hd : Disciplined ins s) :
    ∃ t, core.run ins.length s = .next t ∧ t.inputs = [] ∧ Inv t := by
  induction ins generalizing s with
  | nil => exact ⟨s, rfl, hin, hs⟩
  | cons x rest ih =>
    obtain ⟨hobeys, hlater⟩ := hd
    have hs' : Inv { s with inputs := rest } := inv_outside hs s.crc s.tx s.rx rest s.resp
    obtain ⟨u, hu⟩ := takeInput_completes hs' hobeys
    obtain ⟨t, hrun, ht⟩ := ih (inv_takeInput hs' hu) (takeInput_inputs hu) (hlater u hu)
    exact ⟨t, core_run_succ.2 ⟨u, (step_cons hin).trans hu, hrun⟩, ht⟩

/-! ## The outcomes and their numbers (R260, R261) -/

/-- The constraint of R261, in the numbers it is about. -/
theorem sentinels_apart : Config.sentinels.timedOut ≠ Config.sentinels.error ∧
    Config.sentinels.timedOut ≠ Config.sentinels.busy ∧ Config.sentinels.error ≠ Config.sentinels.busy ∧
    16383 < Config.sentinels.timedOut.natAbs ∧ 16383 < Config.sentinels.error.natAbs ∧
    16383 < Config.sentinels.busy.natAbs := by
  simpa only [Sentinels.legal, Config.vmax, decide_eq_true_eq, Nat.ofNat_lt_cast] using sentinels_legal

@[simp] theorem PollOutcome.num_value (v : I16) : (PollOutcome.value v).num = v.toInt := rfl
@[simp] theorem PollOutcome.num_timedOut : PollOutcome.timedOut.num = Config.sentinels.timedOut := rfl
@[simp] theorem PollOutcome.num_error : PollOutcome.error.num = Config.sentinels.error := rfl

/-- A GET that meets a request is rejected with SENT_BUSY (R238, R239). -/
theorem getCall_resp_of_busy {a ty nu mo : Byte} (hb : s.eng.trk.state ≠ .idle) (h : getCall a ty nu mo n s = .next t) :
    t.resp = some (.getNum Config.sentinels.busy) := by
  obtain ⟨_, u, hu, rfl⟩ := getCall_next.1 h
  obtain ⟨_, rfl, _⟩ := (asyncGet_ok_of_busy (s := s.setPollDl s.eng.pollDl.expire) hb).1 hu
  rfl

/-! ## The frame behind an outcome (R87, R225 to R229) -/

/-- Bytes at the head of `rx` complete the frame `f` in the assembler `a`. -/
def HeadCompletes (rx : List Byte) (a : Assembler) (f : Vector Byte 9) : Prop :=
  ∃ read left : List Byte, rx = read ++ left ∧ (feedAll read a).ready = true ∧
    ∀ i : Fin 9, (feedAll read a).buf[i] = some f[i]

/-- A drain that ends ready has read the bytes of a framed frame. -/
theorem drain_headCompletes {a : Assembler} {rx : List Byte} {f : Vector Byte 9} (ha : AssemblerInv a)
    (hr : (drain a rx).1.ready = true) (hf : (drain a rx).1.frame? = some f) : HeadCompletes rx a f ∧ Framed f := by
  obtain ⟨g, hg, hcells, hframed⟩ := assemblerInv_frame (assemblerInv_drain ha rx) hr
  cases hf.symm.trans hg
  obtain ⟨read, left, hrx, _, _, hd⟩ := drain_split a rx
  rw [hd] at hr hcells
  exact ⟨⟨read, left, hrx, hr, hcells⟩, hframed⟩

/-- An outcome is TimedOut at an expired deadline, or comes of a framed frame that RX's head completed; a Value only of one that
has every field of the reply. -/
theorem pollPending_delivers (ha : AssemblerInv s.eng.asm) (hw : s.eng.trk.wire? = some r)
    (h : pollPending n s = .ok (some (o, c), t)) :
    (o = .timedOut ∧ s.eng.trk.dl.expired n = true) ∨
      ∃ f, HeadCompletes s.rx s.eng.asm f ∧ Framed f ∧ (o = .error ∨ ¬ Foreign r f) := by
  obtain ⟨he, ho⟩ | ⟨_, ⟨_, hres, _⟩ | ⟨hr, f, r', hf, hw', hcases⟩⟩ := pollPending_ok h
  · exact .inl ⟨(terminal_some ho).1, he⟩
  · cases hres
  · cases hw.symm.trans hw'
    obtain ⟨hhead, hframed⟩ := drain_headCompletes ha hr hf
    refine .inr ⟨f, hhead, hframed, ?_⟩
    obtain ⟨hc, _⟩ | ⟨_, ho⟩ := hcases
    · exact .inr (not_foreign_of_correlates hc)
    · exact .inl (terminal_some ho).1

/-- A poll that answers with an outcome is one of a request in PENDING. -/
theorem exec_pePoll_outcome {x : Option Ctx} (h : exec (.pePoll n) s = .next t) (hr : t.resp = some (.poll true (some o) x)) :
    s.eng.trk.state = .pending ∧ ∃ c u, pollPending n (s.setEngLast n) = .ok (some (o, c), u) := by
  obtain ⟨_ | ⟨o', c⟩, u, hu, rfl⟩ := exec_pePoll_next.1 h
  · cases hr
  · cases hr
    obtain ⟨hpoll, hp⟩ := pollStep_some hu
    exact ⟨hp, c, u, hpoll⟩

/-! ## Constructed units (R291) -/

theorem Assembler.construct_registers : (∀ i : Fin 9, Assembler.construct.buf[i] = none) ∧ Assembler.construct.len = 0 ∧
    Assembler.construct.ready = false ∧ Assembler.construct.okCRC = false ∧ Assembler.construct.okSum = false := by
  simp [Assembler.construct]

theorem Tracker.construct_registers (timeoutMs : Int) (t0 : Nat) :
    (Tracker.construct timeoutMs t0).state = .idle ∧ (∀ i : Fin 3, (Tracker.construct timeoutMs t0).payload[i] = none) ∧
    (Tracker.construct timeoutMs t0).ctx = none ∧ (Tracker.construct timeoutMs t0).addr = none ∧
    (Tracker.construct timeoutMs t0).mode = none ∧ (Tracker.construct timeoutMs t0).dl.duration = timeoutMs := by
  simp [Tracker.construct, Deadline.construct]

end

/-! ## The obligations -/

/-- Settles O41: the two directions of the table, and UNDEFINED_OP, which only the decoder raises. -/
theorem faultsExactlyAsTheTable : Obligations.FaultsExactlyAsTheTable := by
  refine ⟨fun i s hs => ⟨fun f => exec_fault_iff hs, fun q hq => ?_, exec_completes hs⟩, fun s c rest hs hin => ?_⟩
  · cases hf : i.fault? s with
    | none =>
      obtain ⟨t, ht⟩ := exec_completes hs hf
      cases ht.symm.trans hq
    | some f => cases (exec_fault_of_table hf).symm.trans hq
  · refine ⟨fun h => ?_, step_command_unassigned hin⟩
    rw [step_cons hin] at h
    obtain ⟨hc, _⟩ | ⟨i, _, hi⟩ := runCommand_fault.1 h
    · exact hc
    · exact absurd ((exec_fault_iff (inv_outside hs s.crc s.tx s.rx rest s.resp)).1 hi) (fault?_ne_undefinedOp i _)

/-- Settles O47: a Value comes of a framed frame that is not foreign to the request, so the request is none of R306's. -/
theorem valueOutcomesAreInRangeAndFramed : Obligations.ValueOutcomesAreInRangeAndFramed := by
  intro s t now v c hs h hresp
  obtain ⟨hp, _, _, hpoll⟩ := exec_pePoll_outcome h hresp
  obtain ⟨hl, hu⟩ := pollPending_value_range (s := s.setEngLast now) hs.eng.asm hpoll
  obtain ⟨⟨r, hw⟩, _⟩ := hs.eng.trk.stored (by simp [hp])
  obtain ⟨hne, _⟩ | ⟨f, _, hf, hne | hown⟩ := pollPending_delivers (s := s.setEngLast now) hs.eng.asm hw hpoll
  · cases hne
  · cases hne
  · have hr : ¬ Unanswerable r := fun hr => hown (hf.foreign hr)
    simp only [Unanswerable, not_or, Bool.not_eq_false, Bool.not_eq_true] at hr
    obtain ⟨haddr, htype, hnumber, hflags, hcmd⟩ := hr
    exact ⟨hl, hu, hcmd, r, hw, haddr, hflags, htype, hnumber⟩

/-- Settles O57: TimedOut needs an expired deadline, whose duration is timeoutMs; else a framed frame ended the request, and it is
foreign to it. -/
theorem unanswerableRequestsAreNeverAnswered : Obligations.UnanswerableRequestsAreNeverAnswered := by
  intro s t now r o c hs hw hr h hresp
  obtain ⟨_, _, _, hpoll⟩ := exec_pePoll_outcome h hresp
  obtain ⟨ho, he⟩ | ⟨f, ⟨read, left, hrx, hready, hcells⟩, hf, ho⟩ :=
    pollPending_delivers (s := s.setEngLast now) hs.eng.asm hw hpoll
  · have hd := ((Deadline.expired_iff now s.eng.trk.dl).1 he).1
    rw [hs.eng.trk.deadline.fixed] at hd
    exact .inl ⟨ho, hd, he⟩
  · have hforeign := hf.foreign hr
    exact .inr ⟨ho.resolve_right (not_not.2 hforeign), read, left, f, hrx, hready, hcells, hforeign⟩

/-- Settles O48: values in range are told apart by the integer they are, and from the sentinels by the constraint of R261. -/
theorem numericFormIsInjective : Obligations.NumericFormIsInjective := by
  obtain ⟨hte, htb, heb, ht, he, hb⟩ := sentinels_apart
  refine ⟨fun o o' ho ho' h => ?_, fun o ho h => ?_, PollOutcome.num_value, rfl, rfl, ?_,
    fun s t a ty nu mo n => getCall_resp_of_busy⟩
  · cases o with
    | value v =>
      have hv := ho v rfl
      cases o' with
      | value v' => exact congrArg PollOutcome.value (BitVec.eq_of_toInt_eq h)
      | timedOut | error =>
        simp only [PollOutcome.num_value, PollOutcome.num_timedOut, PollOutcome.num_error] at h
        omega
    | timedOut =>
      cases o' with
      | value v' =>
        have hv := ho' v' rfl
        simp only [PollOutcome.num_value, PollOutcome.num_timedOut] at h
        omega
      | timedOut => rfl
      | error => exact absurd h hte
    | error =>
      cases o' with
      | value v' =>
        have hv := ho' v' rfl
        simp only [PollOutcome.num_value, PollOutcome.num_error] at h
        omega
      | timedOut => exact absurd h.symm hte
      | error => rfl
  · cases o with
    | value v =>
      have hv := ho v rfl
      rw [PollOutcome.num_value] at h
      omega
    | timedOut => exact htb h
    | error => exact heb h
  · simp only [List.forall_mem_cons, List.not_mem_nil, false_implies, implies_true, and_true]
    omega

/-- Settles O51: the rejected GET has forced the poll deadline, so the next poll sends the request that is still ARMED. -/
theorem rejectedGetReleasesTheArmedRequest : Obligations.RejectedGetReleasesTheArmedRequest := by
  intro s addr ctype number mode n m rest hs hin hn hm ha
  obtain ⟨⟨r, hw⟩, _⟩ := hs.eng.trk.stored (by simp [ha])
  have hstep := (getForcesThenAsks s addr ctype number mode n rest hin hn).1 (by simp [ha])
  have ht := everyStepKeepsTheInvariant _ _ hs hstep
  have hexp := pollDl_expired_of_forced (s := State.mk ..) (n := m) ht.eng ha rfl
  exact ⟨r, _, _, hw, hstep, rfl, rfl, rfl, exec_pePoll_of_pollStep (pollStep_sends hm ha hw hexp), rfl, rfl⟩

/-- Settles O53: each input is taken to its end with the invariant, by induction on the inputs. -/
theorem disciplinedHostMeetsNoFault : Obligations.DisciplinedHostMeetsNoFault := fun _ hs hd =>
  run_of_disciplined hs rfl hd

/-- Settles O8: the input is taken, and what is done with it is one state update. -/
theorem idleAndReceiveSteps : Obligations.IdleAndReceiveSteps :=
  ⟨fun _ => step_nil, fun _ _ _ => step_cons, fun _ _ _ => step_cons, fun _ _ _ => step_cons⟩

/-- Settles O1: the two assemblers and the two trackers are the constructed ones; every other register is given its value. -/
theorem constructionSetsEveryRegister : Obligations.ConstructionSetsEveryRegister := by
  rintro r tx rx ins _ rfl
  have hasm := Assembler.construct_registers
  have htrk := Tracker.construct_registers (EngineCfg.latch r).timeoutMs r.t0
  refine ⟨rfl, rfl, ?_, ?_, ?_, rfl, rfl, rfl, rfl, rfl, rfl, rfl, rfl⟩
  · exact List.forall_mem_cons.2 ⟨hasm, List.forall_mem_singleton.2 hasm⟩
  · exact List.forall_mem_cons.2 ⟨htrk, List.forall_mem_singleton.2 htrk⟩
  · simp [Engine.construct, Tracker.construct, Deadline.construct]

end Sys2Proof.Machine
